-- ==== Sys2Proof/Word.lean ====
section
/-! DEFINITION. The widths of the machine (00_scope.md R6, R8): bytes, words, addresses, register numbers, and the
framebuffer's cells. Every value is unsigned (R8). -/

namespace Sys2Proof

/-- A general register, a memory cell or an immediate `kk`: 8 bits. -/
abbrev Byte := BitVec 8

/-- An instruction word, the index register, the program counter or a stack slot: 16 bits. -/
abbrev Word := BitVec 16

/-- A memory address or a target `nnn`: 12 bits; every value names one of the 4096 cells (20_memory.md R30). -/
abbrev Addr := BitVec 12

/-- A register number `x` or `y`: 4 bits, all 16 of them registers (10_state.md R13). -/
abbrev Reg := BitVec 4

/-- The count `n`: 4 bits. -/
abbrev Nibble := BitVec 4

/-- The 2048 one-bit cells of the display, bit `k` being cell `k = row * 64 + column` (10_state.md R21).
DESIGN CHOICE, safe: see log entry 13. -/
abbrev Screen := BitVec 2048

/-- `VF`, the flag register, is register 15 (10_state.md R14). -/
def flagReg : Reg := 0xF#4

/-- The base of the program region and the entry point (00_scope.md R6, 70_reset_and_hazards.md R133). -/
def programBase : Word := 0x200#16

/-- The last address at which two bytes can be fetched (40_step.md R65). -/
def lastFetch : Word := 0xFFE#16

end Sys2Proof
end

