-- ==== Sys2Proof/Syntax.lean ====
section
/-! DEFINITION. The instructions: one constructor for each of the 26 kinds of 30_encoding.md R47, in the order of
spec/opcode_table.json. -/

namespace Sys2Proof

/-- An instruction with its operands (30_encoding.md R47, R49). `SHR` and `SHL` keep the `y` field they ignore, and
`UNRECOGNIZED` its raw word, so that the word can be recovered from the instruction (R45: `raw` is passed through). -/
inductive Instr where
  /-- `TERMINATOR`, the word 0000 (R56). -/
  | terminator
  /-- `CLS`, 00E0. -/
  | cls
  /-- `RET`, 00EE. -/
  | ret
  /-- `SYS nnn`, 0nnn. -/
  | sys (nnn : Addr)
  /-- `JP nnn`, 1nnn. -/
  | jp (nnn : Addr)
  /-- `CALL nnn`, 2nnn. -/
  | call (nnn : Addr)
  /-- `SE Vx,kk`, 3xkk. -/
  | seVxKk (x : Reg) (kk : Byte)
  /-- `SNE Vx,kk`, 4xkk. -/
  | sneVxKk (x : Reg) (kk : Byte)
  /-- `SE Vx,Vy`, 5xy0. -/
  | seVxVy (x y : Reg)
  /-- `SNE Vx,Vy`, 9xy0. -/
  | sneVxVy (x y : Reg)
  /-- `LD Vx,kk`, 6xkk. -/
  | ldVxKk (x : Reg) (kk : Byte)
  /-- `LD Vx,Vy`, 8xy0. -/
  | ldVxVy (x y : Reg)
  /-- `ADD Vx,kk`, 7xkk. -/
  | addVxKk (x : Reg) (kk : Byte)
  /-- `ADD Vx,Vy`, 8xy4. -/
  | addVxVy (x y : Reg)
  /-- `OR Vx,Vy`, 8xy1. -/
  | orVxVy (x y : Reg)
  /-- `AND Vx,Vy`, 8xy2. -/
  | andVxVy (x y : Reg)
  /-- `XOR Vx,Vy`, 8xy3. -/
  | xorVxVy (x y : Reg)
  /-- `SUB Vx,Vy`, 8xy5. -/
  | subVxVy (x y : Reg)
  /-- `SUBN Vx,Vy`, 8xy7. -/
  | subnVxVy (x y : Reg)
  /-- `SHR Vx`, 8xy6, `y` ignored. -/
  | shrVx (x y : Reg)
  /-- `SHL Vx`, 8xyE, `y` ignored. -/
  | shlVx (x y : Reg)
  /-- `LD I,nnn`, Annn. -/
  | ldI (nnn : Addr)
  /-- `JP V0,nnn`, Bnnn. -/
  | jpV0 (nnn : Addr)
  /-- `RND Vx,kk`, Cxkk. -/
  | rndVxKk (x : Reg) (kk : Byte)
  /-- `DRW Vx,Vy,n`, Dxyn. -/
  | drw (x y : Reg) (n : Nibble)
  /-- `UNRECOGNIZED`, every word that matches no other row (R58). -/
  | unrecognized (raw : Word)
  deriving DecidableEq, Repr

end Sys2Proof
end

