-- ==== Sys2Proof/WellFormed.lean ====
section
/-! DEFINITION. Which terms of Instr are instructions of the machine. The fields' widths are in their types; what remains
is which words are `SYS` and which are `UNRECOGNIZED` (30_encoding.md R50, R52 to R54). `x = 0xF` is well-formed: the
reserved-register check belongs to the execution engine (R59). -/

namespace Sys2Proof

/-- `nnn` is none of the three words of the `0` group that are not `SYS` (30_encoding.md R50). -/
def sysWf (nnn : Addr) : Bool := nnn != 0x000#12 && nnn != 0x0E0#12 && nnn != 0x0EE#12

/-- The low nibbles of the `8` group that name an instruction (30_encoding.md R53). -/
def aluNibble (d : Nat) : Bool := decide (d ≤ 7) || d == 0xE

/-- The words that match no supported pattern (30_encoding.md R52 to R54, R58): 17664 of them. -/
def unrecognizedWf (w : Word) : Bool :=
  let h := (w.extractLsb' 12 4).toNat
  let d := (w.extractLsb' 0 4).toNat
  ((h == 0x5 || h == 0x9) && d != 0) || (h == 0x8 && !aluNibble d) || h == 0xE || h == 0xF

/-- An instruction some word decodes to. -/
def Instr.wf : Instr → Bool
  | .sys nnn => sysWf nnn
  | .unrecognized raw => unrecognizedWf raw
  | .terminator | .cls | .ret => true
  | .jp _ | .call _ | .ldI _ | .jpV0 _ => true
  | .seVxKk _ _ | .sneVxKk _ _ | .ldVxKk _ _ | .addVxKk _ _ | .rndVxKk _ _ => true
  | .seVxVy _ _ | .sneVxVy _ _ | .ldVxVy _ _ | .addVxVy _ _ => true
  | .orVxVy _ _ | .andVxVy _ _ | .xorVxVy _ _ => true
  | .subVxVy _ _ | .subnVxVy _ _ | .shrVx _ _ | .shlVx _ _ => true
  | .drw _ _ _ => true

end Sys2Proof
end

