-- ==== Sys2Proof/Decode.lean ====
section
/-! DEFINITION. The instruction decoder (30_encoding.md): a total function of two bytes, and after it the encoder, from
the encoding column of R49. The bit patterns other than 6xkk are the spec's general knowledge (log entry 14). -/

namespace Sys2Proof

/-- The opcode field `h`, `w[15:12]` (30_encoding.md R46). -/
def hField (w : Word) : Nibble := w.extractLsb' 12 4

/-- The field `x`, `w[11:8]`. -/
def xField (w : Word) : Reg := w.extractLsb' 8 4

/-- The field `y`, `w[7:4]`. -/
def yField (w : Word) : Reg := w.extractLsb' 4 4

/-- The field `n`, `w[3:0]`. -/
def nField (w : Word) : Nibble := w.extractLsb' 0 4

/-- The field `kk`, `w[7:0]`. -/
def kkField (w : Word) : Byte := w.extractLsb' 0 8

/-- The field `nnn`, `w[11:0]`. -/
def nnnField (w : Word) : Addr := w.extractLsb' 0 12

/-- The word of two bytes in memory order: the first byte is the most significant (20_memory.md R34). -/
def wordOfBytes (b0 b1 : Byte) : Word := b0 ++ b1

/-- The words of high nibble 0 (30_encoding.md R50). -/
def decodeZero (w : Word) : Instr :=
  if w = 0x0000#16 then .terminator
  else if w = 0x00E0#16 then .cls
  else if w = 0x00EE#16 then .ret
  else .sys (nnnField w)

/-- The words of high nibble 8, by their low nibble (30_encoding.md R53). -/
def decodeAlu (w : Word) : Instr :=
  match (nField w).toNat with
  | 0x0 => .ldVxVy (xField w) (yField w)
  | 0x1 => .orVxVy (xField w) (yField w)
  | 0x2 => .andVxVy (xField w) (yField w)
  | 0x3 => .xorVxVy (xField w) (yField w)
  | 0x4 => .addVxVy (xField w) (yField w)
  | 0x5 => .subVxVy (xField w) (yField w)
  | 0x6 => .shrVx (xField w) (yField w)
  | 0x7 => .subnVxVy (xField w) (yField w)
  | 0xE => .shlVx (xField w) (yField w)
  | _ => .unrecognized w

/-- The complete decode function of 30_encoding.md R55, on the word. -/
def decodeWord (w : Word) : Instr :=
  match (hField w).toNat with
  | 0x0 => decodeZero w
  | 0x1 => .jp (nnnField w)
  | 0x2 => .call (nnnField w)
  | 0x3 => .seVxKk (xField w) (kkField w)
  | 0x4 => .sneVxKk (xField w) (kkField w)
  | 0x5 => if nField w = 0#4 then .seVxVy (xField w) (yField w) else .unrecognized w
  | 0x6 => .ldVxKk (xField w) (kkField w)
  | 0x7 => .addVxKk (xField w) (kkField w)
  | 0x8 => decodeAlu w
  | 0x9 => if nField w = 0#4 then .sneVxVy (xField w) (yField w) else .unrecognized w
  | 0xA => .ldI (nnnField w)
  | 0xB => .jpV0 (nnnField w)
  | 0xC => .rndVxKk (xField w) (kkField w)
  | 0xD => .drw (xField w) (yField w) (nField w)
  | _ => .unrecognized w

/-- The decoder block of 30_encoding.md R45: two bytes in, the classified instruction out. -/
def decode (b0 b1 : Byte) : Instr := decodeWord (wordOfBytes b0 b1)

/-- Why a run of bytes gives no instruction. Only a list of fewer than two bytes does: the decoder itself never fails
(60_exceptions.md R130); a word that matches no pattern decodes to `unrecognized`. -/
inductive DecodeError where
  | fewerThanTwoBytes
  deriving DecidableEq, Repr

/-- The next instruction of a list of bytes, and the bytes after it: every instruction is 2 bytes (30_encoding.md R62). -/
def decodeBytes : List Byte → Except DecodeError (Instr × List Byte)
  | b0 :: b1 :: rest => .ok (decode b0 b1, rest)
  | _ => .error .fewerThanTwoBytes

/-- A word of the form `hnnn`. -/
def packNnn (h : Nibble) (nnn : Addr) : Word := h ++ nnn

/-- A word of the form `hxkk`. -/
def packXkk (h : Nibble) (x : Reg) (kk : Byte) : Word := h ++ x ++ kk

/-- A word of the form `hxyd`. -/
def packXyn (h : Nibble) (x y : Reg) (d : Nibble) : Word := h ++ x ++ y ++ d

/-- The word of an instruction (the encoding column of 30_encoding.md R49; an unrecognized instruction is its raw word). -/
def encode : Instr → Word
  | .terminator => 0x0000#16
  | .cls => 0x00E0#16
  | .ret => 0x00EE#16
  | .sys nnn => packNnn 0x0#4 nnn
  | .jp nnn => packNnn 0x1#4 nnn
  | .call nnn => packNnn 0x2#4 nnn
  | .seVxKk x kk => packXkk 0x3#4 x kk
  | .sneVxKk x kk => packXkk 0x4#4 x kk
  | .seVxVy x y => packXyn 0x5#4 x y 0x0#4
  | .sneVxVy x y => packXyn 0x9#4 x y 0x0#4
  | .ldVxKk x kk => packXkk 0x6#4 x kk
  | .ldVxVy x y => packXyn 0x8#4 x y 0x0#4
  | .addVxKk x kk => packXkk 0x7#4 x kk
  | .addVxVy x y => packXyn 0x8#4 x y 0x4#4
  | .orVxVy x y => packXyn 0x8#4 x y 0x1#4
  | .andVxVy x y => packXyn 0x8#4 x y 0x2#4
  | .xorVxVy x y => packXyn 0x8#4 x y 0x3#4
  | .subVxVy x y => packXyn 0x8#4 x y 0x5#4
  | .subnVxVy x y => packXyn 0x8#4 x y 0x7#4
  | .shrVx x y => packXyn 0x8#4 x y 0x6#4
  | .shlVx x y => packXyn 0x8#4 x y 0xE#4
  | .ldI nnn => packNnn 0xA#4 nnn
  | .jpV0 nnn => packNnn 0xB#4 nnn
  | .rndVxKk x kk => packXkk 0xC#4 x kk
  | .drw x y n => packXyn 0xD#4 x y n
  | .unrecognized raw => raw

/-- The high byte of a word, `b0`, which lies at the lower address (20_memory.md R34). -/
def firstByte (w : Word) : Byte := w.extractLsb' 8 8

/-- The low byte of a word, `b1`. -/
def secondByte (w : Word) : Byte := w.extractLsb' 0 8

/-- The bytes of an instruction in memory order. -/
def encodeBytes (i : Instr) : List Byte := [firstByte (encode i), secondByte (encode i)]

/-- The first `nbits` bits of an opcode-table word, every bit above them 0: the table numbers bit 0 as the least
significant bit of the word. -/
def tableWord (nbits w : Nat) : Word := BitVec.ofNat 16 (w % 2 ^ nbits)

/-- The instruction the decoder reads from the opcode-table word `w` of `nbits` bits, its bytes laid out in memory order.
Every instruction has 16 bits, so a longer one is none of the machine's. -/
def decodeTableWord (nbits w : Nat) : Option Instr :=
  if nbits ≤ 16 then some (decode (firstByte (tableWord nbits w)) (secondByte (tableWord nbits w))) else none

end Sys2Proof
end

