-- ==== Sys2Proof/Machine/Memory.lean ====
section
/-! DEFINITION. Memory (20_memory.md R30): 4096 byte cells, held as the list of the cells that differ from what an
unlisted address reads as, addresses strictly rising, so that equal memories are equal lists. -/

namespace Sys2Proof.Machine

/-- The cells that are listed: (address, byte) pairs. -/
abbrev Memory := List Host.Cell

/-- What an address that is not listed reads as. DESIGN CHOICE, unsafe: the spec gives no construction content
(70_reset_and_hazards.md R131); after an image load it is the zero fill of 20_memory.md R42. See log entry 8. -/
def Memory.unlisted : Byte := 0x00#8

/-- The byte at a key. -/
def Memory.lookup : Memory → Nat → Byte
  | [], _ => Memory.unlisted
  | (k, b) :: rest, a => if k = a then b else Memory.lookup rest a

/-- Set the byte at a key, keeping the canonical form: the keys stay in rising order and no listed byte equals
`Memory.unlisted`. -/
def Memory.insert : Memory → Nat → Byte → Memory
  | [], a, b => if b = Memory.unlisted then [] else [(a, b)]
  | (k, c) :: rest, a, b =>
    if a < k then
      if b = Memory.unlisted then (k, c) :: rest else (a, b) :: (k, c) :: rest
    else if a = k then
      if b = Memory.unlisted then rest else (a, b) :: rest
    else (k, c) :: Memory.insert rest a b

/-- Every key is at least `lo`, the keys rise strictly, stay below `hi`, and no byte equals `Memory.unlisted`. -/
def Memory.canonFrom (lo hi : Nat) : Memory → Bool
  | [] => true
  | (k, b) :: rest =>
    decide (lo ≤ k) && decide (k < hi) && decide (b ≠ Memory.unlisted) && Memory.canonFrom (k + 1) hi rest

/-- The canonical form of the whole address space `0x000`..`0xFFF`. -/
def Memory.wf (m : Memory) : Bool := Memory.canonFrom 0 0x1000 m

/-- `MemRead(addr, 1)` of 00_scope.md R9. The type of the address says that it lies in `0x000`..`0xFFF`. -/
def Memory.read (m : Memory) (a : Addr) : Byte := Memory.lookup m a.toNat

/-- `MemWrite(addr, 1, v)` of 00_scope.md R9: the host's image load and construction use it, no instruction does
(20_memory.md R33). -/
def Memory.write (m : Memory) (a : Addr) (b : Byte) : Memory := Memory.insert m a.toNat b

/-- Write bytes at successive keys. -/
def Memory.writeBytes : Memory → Nat → List Byte → Memory
  | m, _, [] => m
  | m, a, b :: rest => Memory.writeBytes (Memory.insert m a b) (a + 1) rest

/-- The zero fill of `0x200`..`0xFFF` that an image load begins with (20_memory.md R42): a cell that reads 0 is not
listed, so filling the region with zeros drops its listed cells. -/
def Memory.zeroProgram (m : Memory) : Memory := m.filter fun c => decide (c.1 < 0x200)

/-- The image load's effect on memory (20_memory.md R42): zero fill, then at most `0xE00` bytes from `0x200`. -/
def Memory.loadImage (m : Memory) (img : List Byte) : Memory :=
  Memory.writeBytes (Memory.zeroProgram m) 0x200 (img.take 0xE00)

end Sys2Proof.Machine
end

