-- ==== Sys2Proof/Config.lean ====
section
/-! DEFINITION. The parameters of the model (00_scope.md R7): the construction record of a machine instance, and the one
free value, the byte RND draws. -/

namespace Sys2Proof

/-- `RET_INDEX`: which stack slot `RET` reads (41_control.md R78, 92_eei_decisions.md D9). -/
inductive RetIndex where
  | reference   -- `stack[SP]`, the default
  | textbook    -- `stack[SP - 1]`
  deriving DecidableEq, Repr

/-- `SPRITE_ADDRESSING`: how `DRW` maps a sprite bit to a cell (44_display.md R108, 92_eei_decisions.md D12). -/
inductive SpriteAddressing where
  | linearFault   -- linear, a cell past the buffer is fatal; the default
  | linearDrop    -- linear, a cell past the buffer is skipped
  | toroidal      -- wraps at both edges
  deriving DecidableEq, Repr

/-- The construction record (70_reset_and_hazards.md R131): one value of each parameter of 00_scope.md R7. -/
structure Config where
  retIndex         : RetIndex
  spriteAddressing : SpriteAddressing
  fontBase         : Addr
  fontGlyphs       : Vector Byte 80
  /-- `RESERVED_INIT`: the bytes of `0x000`..`0x1FF` that are not 0, in the canonical form of memory. -/
  reservedInit     : List Host.Cell
  /-- `PROGRAM_INIT`: the bytes of `0x200`..`0xFFF` that are not 0, in the canonical form of memory. -/
  programInit      : List Host.Cell
  initV            : Vector Byte 16
  initI            : Word
  initStack        : Vector Word 16
  initDisplay      : Screen
  initDT           : Byte
  initST           : Byte
  deriving DecidableEq, Repr

/-- What 00_scope.md R7 asks of the parameters: the glyphs end below `0x200`, and each initial content lies in its
region. -/
def Config.wf (c : Config) : Bool :=
  decide (c.fontBase.toNat + 80 ≤ 0x200)
    && Machine.Memory.canonFrom 0 0x200 c.reservedInit
    && Machine.Memory.canonFrom 0x200 0x1000 c.programInit

/-- The conventional glyph bytes that the spec lists as a possible `FONT_GLYPHS` (93_implementation_defined.md K5), digits
0 to F, four to a line. PRESUMED, unsafe: see log entry 9. -/
def conventionalGlyphs : List Byte :=
  [0xF0, 0x90, 0x90, 0x90, 0xF0, 0x20, 0x60, 0x20, 0x20, 0x70, 0xF0, 0x10, 0xF0, 0x80, 0xF0, 0xF0, 0x10, 0xF0, 0x10, 0xF0]
    ++ [0x90, 0x90, 0xF0, 0x10, 0x10, 0xF0, 0x80, 0xF0, 0x10, 0xF0, 0xF0, 0x80, 0xF0, 0x90, 0xF0, 0xF0, 0x10, 0x20, 0x40, 0x40]
    ++ [0xF0, 0x90, 0xF0, 0x90, 0xF0, 0xF0, 0x90, 0xF0, 0x10, 0xF0, 0xF0, 0x90, 0xF0, 0x90, 0x90, 0xE0, 0x90, 0xE0, 0x90, 0xE0]
    ++ [0xF0, 0x80, 0x80, 0x80, 0xF0, 0xE0, 0x90, 0x90, 0x90, 0xE0, 0xF0, 0x80, 0xF0, 0x80, 0xF0, 0xF0, 0x80, 0xF0, 0x80, 0x80]

/-- The instance that `State.reset` constructs. The two named parameters are the spec's defaults (00_scope.md R7); the
glyphs are the conventional ones at `0x000`; every other OPEN parameter is zero. DESIGN CHOICE and PRESUMED, unsafe: see
log entries 2 to 9. -/
def Config.standard : Config where
  retIndex := .reference
  spriteAddressing := .linearFault
  fontBase := 0x000#12
  fontGlyphs := ⟨conventionalGlyphs.toArray, rfl⟩
  reservedInit := []
  programInit := []
  initV := Vector.replicate 16 0x00#8
  initI := 0x0000#16
  initStack := Vector.replicate 16 0x0000#16
  initDisplay := 0#2048
  initDT := 0x00#8
  initST := 0x00#8

/-- The draw of the `k`-th `RND` (43_load_alu.md R102): any byte, under no law. A FREE VALUE: it has no body, so nothing
about it can be proved, and a theorem that mentions it holds whatever it is. DESIGN CHOICE, safe: see log entry 10. -/
opaque Config.rnd : Nat → Byte

end Sys2Proof
end

