-- ==== Sys2Proof/Machine/Construct.lean ====
section
/-! DEFINITION. The content of memory at construction (70_reset_and_hazards.md R131). -/

namespace Sys2Proof.Machine

/-- The construction content of memory: `RESERVED_INIT` and `PROGRAM_INIT`, with the 80 glyph bytes standing at
`FONT_BASE` (20_memory.md R32, 70_reset_and_hazards.md R131). -/
def constructMemory (c : Config) : Memory :=
  Memory.writeBytes (c.reservedInit ++ c.programInit) c.fontBase.toNat c.fontGlyphs.toList

end Sys2Proof.Machine
end

