-- ==== Sys2Proof/Machine/State.lean ====
section
/-! DEFINITION. The state of the machine (10_state.md), how a step can stop, and the state after construction or reset
(70_reset_and_hazards.md R131). State is plain data. -/

namespace Sys2Proof.Machine

/-- The run state (10_state.md R22). -/
inductive RunState where
  | idle       -- construction and reset, before the first step or start
  | running    -- a step executes an instruction
  | halted     -- after a stop request or the terminator
  | panicked   -- after a fatal condition; only reset leaves it
  deriving DecidableEq, Repr

/-- The reasons of a fatal condition (60_exceptions.md R116). A fatal condition is an effect of the machine, not a stop
of the model: the step that raises one answers a next state (R117). -/
inductive FatalReason where
  | illegalTarget
  | stackExceeded
  | emptyCallStack
  | reservedRegister
  | invalidOpcode
  | fetchOutOfRange
  | stackSlotOutOfRange
  | spriteReadOutOfRange
  | pixelOutOfRange
  deriving DecidableEq, Repr

/-- Why the model stops with a fault. -/
inductive Fault where
  /-- `RET` in a state whose `SP` is above 16: the slot it would read does not exist, and the spec gives that state no
  behaviour (10_state.md R18 keeps `SP` in 0..16). Raised by the meaning of `RET` only. Safe: no run reaches it (log
  entry 12). -/
  | noSuchStackSlot
  deriving DecidableEq, Repr

/-- Why the model refuses an instruction. -/
inductive Refusal where
  /-- The instruction has no meaning in the model. Raised by an arm of `exec` only; no arm of this model does. Safe. -/
  | notModelled (mnemonic : String)
  deriving DecidableEq, Repr

/-- The machine state (the field table of 10_state.md), the construction record, and the model's count of draws. -/
structure State where
  /-- `V[0..15]` (R13). -/
  v        : Vector Byte 16
  /-- `I` (R16). -/
  i        : Word
  /-- `pc` (R17). -/
  pc       : Word
  /-- `SP` (R18). -/
  sp       : Byte
  /-- `stack[0..15]` (R19). -/
  stack    : Vector Word 16
  /-- `DT` (R20). -/
  dt       : Byte
  /-- `ST` (R20). -/
  st       : Byte
  /-- `disp[0..2047]` (R21). -/
  disp     : Screen
  /-- `mem[0x000..0xFFF]` (20_memory.md R30). -/
  mem      : Memory
  /-- `run` (R22). -/
  run      : RunState
  /-- `fault` (R24). -/
  fault    : Option FatalReason
  /-- The construction record (70_reset_and_hazards.md R131), configuration that no instruction changes (R26).
  DESIGN CHOICE, safe: log entry 1. -/
  config   : Config
  /-- THE MODEL'S OWN: how many draws have been taken, the argument of the free value `Config.rnd` for the next one
  (43_load_alu.md R102). DESIGN CHOICE, safe: log entry 10. -/
  rndCount : Nat
  deriving DecidableEq, Repr

/-- The machine just constructed from a construction record (70_reset_and_hazards.md R131). -/
def State.construct (c : Config) : State where
  v := c.initV
  i := c.initI
  pc := programBase
  sp := 0#8
  stack := c.initStack
  dt := c.initDT
  st := c.initST
  disp := c.initDisplay
  mem := constructMemory c
  run := .idle
  fault := none
  config := c
  rndCount := 0

/-- The machine right after reset: the instance with the spec's default parameters and the OPEN ones at the values of log
entries 3 to 9. -/
def State.reset : State := State.construct Config.standard

end Sys2Proof.Machine
end

