-- ==== Sys2Proof/Machine/Ops.lean ====
section
/-! DEFINITION. The named operations over registers, stack, display and memory, and the one operation that takes a fatal
condition (60_exceptions.md R117). Every read and write of a field by a meaning goes through these. -/

namespace Sys2Proof.Machine

/-- What a meaning or a step answers. -/
abbrev Result := Host.Outcome State Fault Refusal

/-- `V[x]` (00_scope.md R9). -/
def getV (x : Reg) (s : State) : Byte := s.v[x.toNat]'x.isLt

/-- `V[x] <- b`. -/
def setV (x : Reg) (b : Byte) (s : State) : State := { s with v := s.v.set x.toNat b x.isLt }

/-- `VF <- 1` or `VF <- 0`: the named flag output of 00_scope.md R5. -/
def setFlag (f : Bool) (s : State) : State := setV flagReg (if f then 0x01#8 else 0x00#8) s

/-- `I <- w`. -/
def setI (w : Word) (s : State) : State := { s with i := w }

/-- `pc <- target` (a 16-bit write, 00_scope.md R9). -/
def setPc (w : Word) (s : State) : State := { s with pc := w }

/-- Advance `pc` by one instruction. -/
def advancePc (s : State) : State := setPc (s.pc + 2#16) s

/-- Move `pc` back by one instruction (41_control.md R82). -/
def rewindPc (s : State) : State := setPc (s.pc - 2#16) s

/-- `run <- r`. -/
def setRun (r : RunState) (s : State) : State := { s with run := r }

/-- The framebuffer after a clear or a blit. -/
def setDisp (d : Screen) (s : State) : State := { s with disp := d }

/-- `disp[k]` (00_scope.md R9), for `k` in 0..2047. -/
def pixel (k : Nat) (s : State) : Bool := s.disp.getLsbD k

/-- `MemRead(addr, 1)` (00_scope.md R9). -/
def readByte (a : Addr) (s : State) : Byte := Memory.read s.mem a

/-- `stack[j]`, for the slots that exist (10_state.md R19). -/
def stackSlot (j : Nat) (s : State) : Option Word := s.stack[j]?

/-- `stack[SP] <- w; SP <- SP + 1` (41_control.md R80). -/
def pushReturn (w : Word) (s : State) : State :=
  { s with stack := s.stack.setIfInBounds s.sp.toNat w, sp := s.sp + 1#8 }

/-- `pc <- target; SP <- SP - 1` (41_control.md R78); the slot is not cleared. -/
def popReturn (target : Word) (s : State) : State := { s with pc := target, sp := s.sp - 1#8 }

/-- Count one draw as taken (43_load_alu.md R101, R102). -/
def takeDraw (s : State) : State := { s with rndCount := s.rndCount + 1 }

/-- The numeric code of a reason (60_exceptions.md R116). -/
def FatalReason.code : FatalReason → Nat
  | .illegalTarget => 1
  | .stackExceeded => 2
  | .emptyCallStack => 3
  | .reservedRegister => 4
  | .invalidOpcode => 5
  | .fetchOutOfRange => 6
  | .stackSlotOutOfRange => 7
  | .spriteReadOutOfRange => 8
  | .pixelOutOfRange => 9

/-- `raise Fatal(reason)` (60_exceptions.md R117): the machine panics and keeps the reason. Nothing else is changed, and
the step ends. -/
def raiseFatal (r : FatalReason) (s : State) : State := { s with run := .panicked, fault := some r }

/-- There is no return from a fatal condition; only reset leaves it (60_exceptions.md R120), which puts every field to its
construction value (70_reset_and_hazards.md R132). The count of draws is not the spec's and goes on, so that the draws
after a reset are fresh. DESIGN CHOICE, safe: log entry 11. -/
def reinitialise (s : State) : State := { State.construct s.config with rndCount := s.rndCount }

/-- The answer of a meaning that raises a fatal condition: the next state has taken it. -/
def fatal (r : FatalReason) (s : State) : Result := .next (raiseFatal r s)

end Sys2Proof.Machine
end

