-- ==== Sys2Proof/Machine/Operands.lean ====
section
/-! DEFINITION. The operand forms (30_encoding.md R48): zero-extended addresses, the checked jump target, the explicit
destination register with its check, and DRW's sprite bytes. -/

namespace Sys2Proof.Machine

/-- `zext_16(nnn)` (30_encoding.md R48). -/
def zextAddr (nnn : Addr) : Word := nnn.setWidth 16

/-- The target of `JP V0,nnn`: `zext_16(nnn) + zext_16(V[0])`, at most `0x10FE`, so without wrap (41_control.md R81). -/
def v0Target (nnn : Addr) (s : State) : Word := zextAddr nnn + (getV 0#4 s).setWidth 16

/-- `ValidTarget(t)`: `0x200 <= t <= 0xFFF` (41_control.md R76). -/
def validTarget (t : Word) : Bool := decide (0x200 ≤ t.toNat) && decide (t.toNat ≤ 0xFFF)

/-- An instruction with an explicit destination `V[x]` first enforces that it is not `VF` (40_step.md R69): if it is,
nothing else of the instruction happens. -/
def withDest (x : Reg) (s : State) (effect : State → State) : Result :=
  if x = flagReg then fatal .reservedRegister s else .next (effect s)

/-- An instruction with a jump target first checks it (41_control.md R76). -/
def withTarget (t : Word) (s : State) (body : State → Result) : Result :=
  if validTarget t then body s else fatal .illegalTarget s

/-- The low 12 bits of `I`, DRW's base address (44_display.md R106, 92_eei_decisions.md D13). -/
def spriteBase (s : State) : Addr := s.i.setWidth 12

/-- Some row of the sprite lies past `0xFFF` (44_display.md R106). -/
def spriteReadPast (n : Nibble) (s : State) : Bool :=
  (List.range n.toNat).any fun r => decide ((spriteBase s).toNat + r > 0xFFF)

/-- The `n` bytes of the sprite, row 0 first (44_display.md R106). -/
def spriteRows (n : Nibble) (s : State) : List Byte :=
  (List.range n.toNat).map fun r => readByte (spriteBase s + BitVec.ofNat 12 r) s

end Sys2Proof.Machine
end

