-- ==== Sys2Proof/Machine/Control.lean ====
section
/-! DEFINITION. Control transfer (41_control.md), and the fatal outcome of an unrecognized word (40_step.md R68). Every
meaning starts from the post-fetch state: `pc` is the instruction's own address plus 2. -/

namespace Sys2Proof.Machine

/-- `SYS nnn`: a no-op for every `nnn` (R77). -/
def execSys (_nnn : Addr) (s : State) : Result := .next s

/-- `JP nnn` (R79). -/
def execJp (nnn : Addr) (s : State) : Result :=
  withTarget (zextAddr nnn) s fun s => .next (setPc (zextAddr nnn) s)

/-- `JP V0,nnn` (R81). -/
def execJpV0 (nnn : Addr) (s : State) : Result :=
  withTarget (v0Target nnn s) s fun s => .next (setPc (v0Target nnn s) s)

/-- `CALL nnn` (R80): the target is checked before the stack; the return address is the post-fetch PC. -/
def execCall (nnn : Addr) (s : State) : Result :=
  withTarget (zextAddr nnn) s fun s =>
    if s.sp.toNat ≥ 16 then fatal .stackExceeded s
    else .next (setPc (zextAddr nnn) (pushReturn s.pc s))

/-- Return to the address in slot `j`, where that slot exists. -/
def returnTo (j : Nat) (s : State) : Result :=
  match stackSlot j s with
  | some target => .next (popReturn target s)
  | none => .fault .noSuchStackSlot

/-- `RET` (R78): the slot read is the parameter `RET_INDEX`. -/
def execRet (s : State) : Result :=
  if s.sp = 0#8 then fatal .emptyCallStack s
  else match s.config.retIndex with
    | .reference =>
      if s.sp = 16#8 then fatal .stackSlotOutOfRange s else returnTo s.sp.toNat s
    | .textbook => returnTo (s.sp.toNat - 1) s

/-- `TERMINATOR` (R82): back to its own address, and a clean halt. -/
def execTerminator (s : State) : Result := .next (setRun .halted (rewindPc s))

/-- `UNRECOGNIZED` is fatal (40_step.md R68). -/
def execUnrecognized (_raw : Word) (s : State) : Result := fatal .invalidOpcode s

end Sys2Proof.Machine
end

