-- ==== Sys2Proof/Machine/Blitter.lean ====
section
/-! DEFINITION. The sprite blitter (44_display.md R105 to R112): a block of its own, from a start position, the sprite's
rows and the framebuffer to the new framebuffer and the collision output. It touches no register and no memory (R112). -/

namespace Sys2Proof.Machine

/-- The columns of the screen (00_scope.md R6). -/
def screenColumns : Nat := 64

/-- The rows of the screen. -/
def screenRows : Nat := 32

/-- The cells of the framebuffer. -/
def screenCells : Nat := 2048

/-- The linear cell number, not reduced to the screen (44_display.md R108). -/
def linearCell (px py : Byte) (r c : Nat) : Nat := (py.toNat + r) * screenColumns + (px.toNat + c)

/-- The cell number that wraps at both edges (44_display.md R108). -/
def toroidalCell (px py : Byte) (r c : Nat) : Nat :=
  (py.toNat + r) % screenRows * screenColumns + (px.toNat + c) % screenColumns

/-- The cell number under each setting of `SPRITE_ADDRESSING` (44_display.md R108). -/
def cellIndex (mode : SpriteAddressing) (px py : Byte) (r c : Nat) : Nat :=
  match mode with
  | .linearFault | .linearDrop => linearCell px py r c
  | .toroidal => toroidalCell px py r c

/-- `Cell(r, c)` (44_display.md R108): none where the cell is past the buffer. -/
def cellOf (mode : SpriteAddressing) (px py : Byte) (r c : Nat) : Option Nat :=
  if cellIndex mode px py r c < screenCells then some (cellIndex mode px py r c) else none

/-- `bit(r, c)` of a row: column 0 is bit 7 (44_display.md R107). -/
def spriteBit (row : Byte) (c : Nat) : Bool := (row >>> (7 - c)).getLsbD 0

/-- The eight columns of a sprite row. -/
def spriteColumns : List Nat := [0, 1, 2, 3, 4, 5, 6, 7]

/-- What the blitter puts out: the framebuffer and whether some cell collided (44_display.md R112). -/
structure Blit where
  disp    : Screen
  collide : Bool
  deriving DecidableEq, Repr

/-- A 1 bit toggles its cell; a cell that held 1 collides (44_display.md R109, R110). -/
def toggleCell (k : Nat) (b : Blit) : Blit where
  disp := b.disp ^^^ BitVec.twoPow 2048 k
  collide := b.collide || b.disp.getLsbD k

/-- One bit of the sprite: a 0 bit leaves its cell, a bit without a cell is skipped (44_display.md R108, R109). -/
def blitBit (mode : SpriteAddressing) (px py : Byte) (r : Nat) (row : Byte) (b : Blit) (c : Nat) : Blit :=
  if spriteBit row c then
    match cellOf mode px py r c with
    | some k => toggleCell k b
    | none => b
  else b

/-- One row, column 0 first. -/
def blitRow (mode : SpriteAddressing) (px py : Byte) (r : Nat) (row : Byte) (b : Blit) : Blit :=
  spriteColumns.foldl (blitBit mode px py r row) b

/-- The rows from row `r` on (the double loop of 44_display.md R111). -/
def blitRows (mode : SpriteAddressing) (px py : Byte) : Nat → List Byte → Blit → Blit
  | _, [], b => b
  | r, row :: rows, b => blitRows mode px py (r + 1) rows (blitRow mode px py r row b)

/-- Some cell of the first `n` rows is past the buffer, whatever its bit (44_display.md R108). -/
def pixelPast (px py : Byte) (n : Nat) : Bool :=
  (List.range n).any fun r => spriteColumns.any fun c => decide (linearCell px py r c > 2047)

/-- The blitter's fault output: only under `linear_fault` (44_display.md R108, R112). -/
def blitFault (mode : SpriteAddressing) (px py : Byte) (n : Nat) : Bool :=
  match mode with
  | .linearFault => pixelPast px py n
  | .linearDrop | .toroidal => false

/-- `blitSprite(x, y, bytes)` (44_display.md R112), where its fault output is 0. -/
def blitSprite (mode : SpriteAddressing) (px py : Byte) (rows : List Byte) (disp : Screen) : Blit :=
  blitRows mode px py 0 rows { disp := disp, collide := false }

end Sys2Proof.Machine
end

