-- ==== Sys2Proof/Machine/Display.lean ====
section
/-! DEFINITION. The display instructions (44_display.md). -/

namespace Sys2Proof.Machine

/-- The framebuffer with every cell 0 (R104). -/
def blankScreen : Screen := 0#2048

/-- `CLS` (R104). -/
def execCls (s : State) : Result := .next (setDisp blankScreen s)

/-- The engine's use of the blitter's outputs: the new framebuffer, and `VF <- 1` on a collision; otherwise `VF` keeps
its value (R110, R112). -/
def applyBlit (b : Blit) (s : State) : State :=
  if b.collide then setFlag true (setDisp b.disp s) else setDisp b.disp s

/-- `DRW Vx,Vy,n` (R111): the sprite's reads are checked, then under `linear_fault` its cells, both before any write. -/
def execDrw (x y : Reg) (n : Nibble) (s : State) : Result :=
  if spriteReadPast n s then fatal .spriteReadOutOfRange s
  else if blitFault s.config.spriteAddressing (getV x s) (getV y s) n.toNat then fatal .pixelOutOfRange s
  else .next
    (applyBlit (blitSprite s.config.spriteAddressing (getV x s) (getV y s) (spriteRows n s) s.disp) s)

end Sys2Proof.Machine
end

