-- ==== Sys2Proof/Machine/Flags.lean ====
section
/-! DEFINITION. The flag results (43_load_alu.md R103), each with the value written beside it. -/

namespace Sys2Proof.Machine

/-- `ADD Vx,Vy`: `VF = 1` iff the sum before the wrap exceeds 255 (R92). -/
def carryOut (a b : Byte) : Bool := decide (a.toNat + b.toNat > 255)

/-- `SUB` and `SUBN`: `VF = 1` iff the minuend is strictly greater than the subtrahend (R96, R97; 90_conflicts.md C9). -/
def strictlyGreater (a b : Byte) : Bool := decide (a.toNat > b.toNat)

/-- `SHR`: the bit shifted out at the bottom (R98). -/
def lowBit (a : Byte) : Bool := a.getLsbD 0

/-- `SHL`: the bit shifted out at the top (R99). -/
def highBit (a : Byte) : Bool := a.getLsbD 7

/-- The sum of `ADD`, modulo 256 (00_scope.md R10). -/
def wrappedSum (a b : Byte) : Byte := a + b

/-- The difference of `SUB` and `SUBN`, modulo 256 (00_scope.md R10). -/
def wrappedDiff (a b : Byte) : Byte := a - b

/-- `SHR`'s result: logical, bit 7 becomes 0 (R98). -/
def shiftedRight (a : Byte) : Byte := a >>> 1

/-- `SHL`'s result modulo 256: bit 0 becomes 0 (R99). -/
def shiftedLeft (a : Byte) : Byte := a <<< 1

end Sys2Proof.Machine
end

