-- ==== Sys2Proof/Machine/LoadAlu.lean ====
section
/-! DEFINITION. Register loads and arithmetic (43_load_alu.md). The order of reads and writes inside a meaning is the
order of its rule's pseudocode (70_reset_and_hazards.md R138). -/

namespace Sys2Proof.Machine

/-- `LD Vx,kk` (R89). -/
def execLdVxKk (x : Reg) (kk : Byte) (s : State) : Result := withDest x s fun s => setV x kk s

/-- `LD Vx,Vy` (R90). -/
def execLdVxVy (x y : Reg) (s : State) : Result := withDest x s fun s => setV x (getV y s) s

/-- `ADD Vx,kk`: no flag (R91). -/
def execAddVxKk (x : Reg) (kk : Byte) (s : State) : Result :=
  withDest x s fun s => setV x (wrappedSum (getV x s) kk) s

/-- `ADD Vx,Vy`: the sum is computed before either write (R92). -/
def execAddVxVy (x y : Reg) (s : State) : Result :=
  withDest x s fun s =>
    setV x (wrappedSum (getV x s) (getV y s)) (setFlag (carryOut (getV x s) (getV y s)) s)

/-- `OR Vx,Vy`: no flag (R93). -/
def execOrVxVy (x y : Reg) (s : State) : Result := withDest x s fun s => setV x (getV x s ||| getV y s) s

/-- `AND Vx,Vy`: no flag (R94). -/
def execAndVxVy (x y : Reg) (s : State) : Result := withDest x s fun s => setV x (getV x s &&& getV y s) s

/-- `XOR Vx,Vy`: no flag (R95). -/
def execXorVxVy (x y : Reg) (s : State) : Result := withDest x s fun s => setV x (getV x s ^^^ getV y s) s

/-- The second half of `SUB`: `V[x] <- V[x] - V[y]`, both read now, after the flag write (R96). -/
def subtractInto (x y : Reg) (s : State) : State := setV x (wrappedDiff (getV x s) (getV y s)) s

/-- The second half of `SUBN`: `V[x] <- V[y] - V[x]`, both read now, after the flag write (R97). -/
def subtractFrom (x y : Reg) (s : State) : State := setV x (wrappedDiff (getV y s) (getV x s)) s

/-- `SUB Vx,Vy`: the flag first, then the difference (R96, 92_eei_decisions.md D11). -/
def execSubVxVy (x y : Reg) (s : State) : Result :=
  withDest x s fun s => subtractInto x y (setFlag (strictlyGreater (getV x s) (getV y s)) s)

/-- `SUBN Vx,Vy`: the operands reversed, the same order (R97). -/
def execSubnVxVy (x y : Reg) (s : State) : Result :=
  withDest x s fun s => subtractFrom x y (setFlag (strictlyGreater (getV y s) (getV x s)) s)

/-- `SHR Vx`: `y` is ignored (R98). -/
def execShrVx (x _y : Reg) (s : State) : Result :=
  withDest x s fun s => setV x (shiftedRight (getV x s)) (setFlag (lowBit (getV x s)) s)

/-- `SHL Vx`: `y` is ignored (R99). -/
def execShlVx (x _y : Reg) (s : State) : Result :=
  withDest x s fun s => setV x (shiftedLeft (getV x s)) (setFlag (highBit (getV x s)) s)

/-- `LD I,nnn`: `nnn` is not checked (R100). -/
def execLdI (nnn : Addr) (s : State) : Result := .next (setI (zextAddr nnn) s)

/-- `RND Vx,kk` for a given draw (R101, R102); no draw is taken when the destination is refused. -/
def rndWith (draw : Byte) (x : Reg) (kk : Byte) (s : State) : Result :=
  withDest x s fun s => setV x (draw &&& kk) (takeDraw s)

/-- `RND Vx,kk`: the draw is the step's free value (R102; log entry 10). -/
def execRndVxKk (x : Reg) (kk : Byte) (s : State) : Result := rndWith (Config.rnd s.rndCount) x kk s

end Sys2Proof.Machine
end

