-- ==== Sys2Proof/Machine/Skip.lean ====
section
/-! DEFINITION. The conditional skips (42_skip.md). `VF` is a legal source here. -/

namespace Sys2Proof.Machine

/-- `Skip(cond)` (R84): the next word is passed over without being fetched. -/
def skipIf (cond : Bool) (s : State) : Result := .next (if cond then advancePc s else s)

/-- `SE Vx,kk` (R85). -/
def execSeVxKk (x : Reg) (kk : Byte) (s : State) : Result := skipIf (getV x s == kk) s

/-- `SNE Vx,kk` (R86). -/
def execSneVxKk (x : Reg) (kk : Byte) (s : State) : Result := skipIf (getV x s != kk) s

/-- `SE Vx,Vy` (R87). -/
def execSeVxVy (x y : Reg) (s : State) : Result := skipIf (getV x s == getV y s) s

/-- `SNE Vx,Vy` (R88). -/
def execSneVxVy (x y : Reg) (s : State) : Result := skipIf (getV x s != getV y s) s

end Sys2Proof.Machine
end

