-- ==== Sys2Proof/Machine/Cycle.lean ====
section
/-! DEFINITION. The step request and its cycle (40_step.md R63 to R67): fetch, decode, execute. -/

namespace Sys2Proof.Machine

/-- The address of the first byte of the fetch. The window check makes `pc` a 12-bit value. -/
def fetchAddr (pc : Word) : Addr := pc.setWidth 12

/-- Both bytes of a fetch at `pc` lie in the program region (40_step.md R65). No alignment is asked (20_memory.md R36). -/
def fetchable (pc : Word) : Bool := decide (programBase.toNat ≤ pc.toNat) && decide (pc.toNat ≤ lastFetch.toNat)

/-- The word at `pc`, as the two bytes of 20_memory.md R34, decoded (40_step.md R66). -/
def fetchedInstr (s : State) : Instr :=
  decode (readByte (fetchAddr s.pc) s) (readByte (fetchAddr (s.pc + 1#16)) s)

/-- One cycle (40_step.md R64): the fetch's window check fails with `pc` unchanged; otherwise `pc` advances by 2 before
the instruction executes (R65). -/
def cycle (s : State) : Result :=
  if fetchable s.pc then exec (fetchedInstr s) (advancePc s) else fatal .fetchOutOfRange s

/-- The step request (40_step.md R63): in Idle it first enters Running; in Halted and Panicked nothing changes. -/
def stepRequest (s : State) : Result :=
  match s.run with
  | .idle => cycle (setRun .running s)
  | .running => cycle s
  | .halted => .next s
  | .panicked => .next s

/-- Where an instruction is placed so that the next step fetches it: at `pc`, or at the program base when `pc` cannot be
fetched from. -/
def placedAt (s : State) : Word := if fetchable s.pc then s.pc else programBase

/-- The run state in which the next step executes an instruction. -/
def runnable : RunState → RunState
  | .idle => .idle
  | .running => .running
  | .halted => .running
  | .panicked => .running

/-- The fault that stands beside that run state (10_state.md R24). -/
def runnableFault (r : RunState) (f : Option FatalReason) : Option FatalReason :=
  match r with
  | .panicked => none
  | .idle | .running | .halted => f

/-- The state with a word stored where the next step fetches it, its bytes in memory order; nothing else changes in a
state that can already step. Log entry 16. -/
def placeWord (w : Word) (s : State) : State :=
  { s with
    pc := placedAt s
    run := runnable s.run
    fault := runnableFault s.run s.fault
    mem := Memory.write (Memory.write s.mem (fetchAddr (placedAt s)) (firstByte w))
      (fetchAddr (placedAt s + 1#16)) (secondByte w) }

end Sys2Proof.Machine
end

