-- ==== Sys2Proof/Machine/Step.lean ====
section
/-! DEFINITION. One step of the machine: the step request of 40_step.md R63; and where a test's instruction is placed. -/

namespace Sys2Proof.Machine

/-- One step request (40_step.md R63). -/
def step (s : State) : Host.Outcome State Fault Refusal := stepRequest s

/-- `s` with the opcode-table word `w` of `nbits` bits stored where `step` fetches its next instruction. -/
def State.withFetchWord (s : State) (nbits w : Nat) : State := placeWord (tableWord nbits w) s

end Sys2Proof.Machine
end

