-- ==== Sys2Proof/Machine/Requests.lean ====
section
/-! DEFINITION. The host's requests other than step (40_step.md R72, R73): each is one atomic transaction between steps
(R74). None is made by an instruction. -/

namespace Sys2Proof.Machine

/-- Start, also called continue (40_step.md R72): Idle or Halted to Running; nothing in Running or Panicked. -/
def startRequest (s : State) : State :=
  match s.run with
  | .idle | .halted => setRun .running s
  | .running | .panicked => s

/-- Stop (40_step.md R72): Running to Halted; nothing otherwise. -/
def stopRequest (s : State) : State :=
  match s.run with
  | .running => setRun .halted s
  | .idle | .halted | .panicked => s

/-- Reset (70_reset_and_hazards.md R132), from any run state. -/
def resetRequest (s : State) : State := reinitialise s

/-- Load image (20_memory.md R42): it writes memory and nothing else, in any run state. -/
def loadImage (img : List Byte) (s : State) : State := { s with mem := Memory.loadImage s.mem img }

/-- The display's `clear()` (44_display.md R113): `CLS`'s effect on the framebuffer. -/
def clearDisplay (s : State) : State := setDisp blankScreen s

/-- The display's `fill()`: every cell 1 (44_display.md R113). -/
def fillDisplay (s : State) : State := setDisp (BitVec.allOnes 2048) s

/-- The display's `randomize()`: a free draw of 2048 bits, taken as an argument (44_display.md R113). -/
def randomizeDisplay (draw : Screen) (s : State) : State := setDisp draw s

/-- Inspect: a snapshot of every field and of memory, which changes nothing (10_state.md R29). -/
def inspect (s : State) : State := s

/-- The requests of 40_step.md R73. `decode` is answered by `Sys2Proof.decode` and `inspect` by the state itself. -/
inductive Request where
  | step
  | start
  | stop
  | reset
  | loadImage (img : List Byte)
  | inspect
  | decode (b0 b1 : Byte)
  | displayClear
  | displayFill
  | displayRandomize (draw : Screen)
  deriving DecidableEq, Repr

/-- One transaction: the effect column of 40_step.md R73. -/
def serve (q : Request) (s : State) : Result :=
  match q with
  | .step => step s
  | .start => .next (startRequest s)
  | .stop => .next (stopRequest s)
  | .reset => .next (resetRequest s)
  | .loadImage img => .next (loadImage img s)
  | .inspect => .next (inspect s)
  | .decode _ _ => .next s
  | .displayClear => .next (clearDisplay s)
  | .displayFill => .next (fillDisplay s)
  | .displayRandomize draw => .next (randomizeDisplay draw s)

/-- The disassembler's walk over `fuel` words from address `a` on (30_encoding.md R61): the address and the instruction
of each line, ending with the terminator's line. DEDUCED: log entry 18. -/
def disassembleFrom (s : State) : Nat → Addr → List (Addr × Instr)
  | 0, _ => []
  | fuel + 1, a =>
    let ins := decode (readByte a s) (readByte (a + 1#12) s)
    (a, ins) :: if ins = .terminator then [] else disassembleFrom s fuel (a + 2#12)

/-- The disassembler reads each 2-byte-aligned address from `0x200` to `0xFFE`: 1792 words (30_encoding.md R61). -/
def disassemble (s : State) : List (Addr × Instr) := disassembleFrom s 1792 0x200#12

end Sys2Proof.Machine
end

