-- ==== Sys2Proof/Machine/Run.lean ====
section
/-! DEFINITION. Runs: sequences of step requests from a start state, and how they end (40_step.md R75). The host makes no
other request during a run; a stop between two steps is none of its steps (log entry 17). -/

namespace Sys2Proof.Machine

/-- The answer of `n` step requests in a row: the run of `n` steps. It ends early only where the model stops. -/
def runSteps : Nat → State → Result
  | 0, s => .next s
  | n + 1, s =>
    match step s with
    | .next t => runSteps n t
    | .fault f => .fault f
    | .refused r => .refused r

/-- `pc` is the address of a terminator (41_control.md R82). -/
def State.atTerminator (s : State) : Prop := fetchable s.pc = true ∧ fetchedInstr s = .terminator

/-- The next step request executes the terminator: the machine executes (40_step.md R63) and `pc` is at one. -/
def State.executesTerminator (s : State) : Prop := (s.run = .idle ∨ s.run = .running) ∧ s.atTerminator

/-- The machine has panicked (10_state.md R22). -/
def State.panicked (s : State) : Prop := s.run = .panicked

/-- Every further step request is a no-op (40_step.md R63, R75). -/
def State.ended (s : State) : Prop := s.run = .halted ∨ s.run = .panicked

/-- The state at a good end (40_step.md R75): Halted, no fault reason, `pc` at the terminator's address. That the
terminator was executed, and the halt not made by a stop request at that address, is said of the run: `RunEndedWell`. -/
def State.endedWell (s : State) : Prop := s.run = .halted ∧ s.fault = none ∧ s.atTerminator

/-- The run of `n` steps from `s` has ended in `t`: `run` is Halted or Panicked after a step (40_step.md R75). -/
def RunEnded (n : Nat) (s t : State) : Prop := 0 < n ∧ runSteps n s = .next t ∧ t.ended

/-- It ended well (40_step.md R75): a step of the run executed the terminator, and the end state is Halted with no fault
reason and `pc` at that terminator's address. -/
def RunEndedWell (n : Nat) (s t : State) : Prop :=
  RunEnded n s t ∧ t.endedWell ∧
    ∃ k u, k < n ∧ runSteps k s = .next u ∧ u.executesTerminator ∧ t.pc = u.pc

/-- It ended badly (40_step.md R75). -/
def RunEndedBadly (n : Nat) (s t : State) : Prop := RunEnded n s t ∧ t.panicked

end Sys2Proof.Machine
end

