-- ==== Sys2Proof/Safety.lean ====
section
/-! DEFINITION. What counts as a well-formed state, and who may do what, in the terms the claims use. How a run ends,
well or badly, is in Machine/Run.lean. -/

namespace Sys2Proof.Machine

/-- The instructions whose explicit destination is `V[x]`, with that `x` (40_step.md R69). -/
def explicitDest : Instr → Option Reg
  | .ldVxKk x _ | .ldVxVy x _ | .addVxKk x _ | .addVxVy x _ => some x
  | .orVxVy x _ | .andVxVy x _ | .xorVxVy x _ => some x
  | .subVxVy x _ | .subnVxVy x _ | .shrVx x _ | .shlVx x _ | .rndVxKk x _ => some x
  | .terminator | .cls | .ret | .sys _ | .jp _ | .call _ => none
  | .seVxKk _ _ | .sneVxKk _ _ | .seVxVy _ _ | .sneVxVy _ _ => none
  | .ldI _ | .jpV0 _ | .drw _ _ _ | .unrecognized _ => none

/-- The `raised by` column of 60_exceptions.md R116. -/
def mayRaise : Instr → FatalReason → Bool
  | .jp _, .illegalTarget | .jpV0 _, .illegalTarget => true
  | .call _, .illegalTarget | .call _, .stackExceeded => true
  | .ret, .emptyCallStack | .ret, .stackSlotOutOfRange => true
  | .unrecognized _, .invalidOpcode => true
  | .drw _ _ _, .spriteReadOutOfRange | .drw _ _ _, .pixelOutOfRange => true
  | i, .reservedRegister => (explicitDest i).isSome
  | _, _ => false

/-- The instructions that write `VF` together with their destination (10_state.md R15); `DRW` writes it on a collision
only. -/
def writesFlag : Instr → Bool
  | .addVxVy _ _ | .subVxVy _ _ | .subnVxVy _ _ | .shrVx _ _ | .shlVx _ _ => true
  | .ldVxKk _ _ | .ldVxVy _ _ | .addVxKk _ _ | .orVxVy _ _ | .andVxVy _ _ | .xorVxVy _ _ | .rndVxKk _ _ => false
  | .terminator | .cls | .ret | .sys _ | .jp _ | .call _ => false
  | .seVxKk _ _ | .sneVxKk _ _ | .seVxVy _ _ | .sneVxVy _ _ => false
  | .ldI _ | .jpV0 _ | .drw _ _ _ | .unrecognized _ => false

/-- `SP` holds 0 to 16 (10_state.md R18). -/
def State.spInRange (s : State) : Prop := s.sp.toNat ≤ 16

/-- `run == Panicked` if and only if `fault != none` (10_state.md R24). -/
def State.faultMatchesRun (s : State) : Prop := s.run = .panicked ↔ s.fault ≠ none

/-- The invariant of the machine (10_state.md R18, R24, R28): `SP` in range, the fault reason beside Panicked and only
there, memory and the construction record in their canonical form. -/
def State.Inv (s : State) : Prop :=
  s.spInRange ∧ s.faultMatchesRun ∧ Memory.wf s.mem = true ∧ s.config.wf = true

/-- `I` is at most `0xFFF` once `LD I,nnn` has executed; before it, `I` is `INIT_I` (10_state.md R16, R28). -/
def State.indexBounded (s : State) : Prop := s.i.toNat ≤ 0xFFF ∨ s.i = s.config.initI

/-- A stack slot is a return address at most `0x1000` or still holds its construction value (10_state.md R19). -/
def State.slotsBounded (s : State) : Prop :=
  ∀ j : Fin 16, s.stack[j].toNat ≤ 0x1000 ∨ s.stack[j] = s.config.initStack[j]

/-- Between steps `pc` is at most `0x1002`, or is a 16-bit value that `RET` restored from a slot no `CALL` had written
(10_state.md R17). -/
def State.pcBounded (s : State) : Prop :=
  s.pc.toNat ≤ 0x1002 ∨ ∃ j : Fin 16, s.pc = s.config.initStack[j]

end Sys2Proof.Machine
end

