-- ==== Sys2Proof/Certificates/Slice0/Obligations.lean ====
section
/-! DEFINITION. The statements for the provers. A statement about an instruction starts from the post-fetch state, as the
rules of the spec do: `pc` is the instruction's own address plus 2. -/

namespace Sys2Proof.Claims

open Sys2Proof.Machine

/-- The pieces of the state, each register, slot, cell and byte by itself. -/
inductive Part where
  | reg (r : Reg)
  | index
  | pc
  | sp
  | slot (j : Nat)
  | delayTimer
  | soundTimer
  | cell (k : Nat)
  | byte (a : Addr)
  | run
  | fault
  | config
  | draws
  deriving DecidableEq, Repr

/-- `t` holds in this piece what `s` holds in it. -/
def Keeps (s t : State) : Part → Prop
  | .reg r => getV r t = getV r s
  | .index => t.i = s.i
  | .pc => t.pc = s.pc
  | .sp => t.sp = s.sp
  | .slot j => stackSlot j t = stackSlot j s
  | .delayTimer => t.dt = s.dt
  | .soundTimer => t.st = s.st
  | .cell k => pixel k t = pixel k s
  | .byte a => readByte a t = readByte a s
  | .run => t.run = s.run
  | .fault => t.fault = s.fault
  | .config => t.config = s.config
  | .draws => t.rndCount = s.rndCount

/-- The frame: every piece that `may` does not name is unchanged, every byte of memory among them. -/
def OnlyChanges (may : Part → Prop) (s t : State) : Prop := ∀ p, ¬ may p → Keeps s t p

/-- `p` is a cell of the framebuffer. -/
def IsCell (p : Part) : Prop := ∃ k, p = .cell k

/-- The fatal condition `r` was taken (60_exceptions.md R117): the run state and the reason, and nothing else. -/
def Panics (r : FatalReason) (s t : State) : Prop :=
  t.run = .panicked ∧ t.fault = some r ∧ OnlyChanges (fun p => p = .run ∨ p = .fault) s t

/-- The instruction answers a state that took the fatal condition `r`. -/
def Raises (i : Instr) (r : FatalReason) (s : State) : Prop := ∃ t, exec i s = .next t ∧ Panics r s t

/-- A flag as the byte `VF` holds. -/
def flagByte (f : Prop) [Decidable f] : Byte := if f then 1#8 else 0#8

/-- A step request executes an instruction: the run state is Idle or Running, and both bytes stand in the window. -/
def Ready (s : State) : Prop :=
  (s.run = .idle ∨ s.run = .running) ∧ 0x200 ≤ s.pc.toNat ∧ s.pc.toNat ≤ 0xFFE

/-- The word `w` stands at `pc`, its high byte first (20_memory.md R34). -/
def WordAt (s : State) (w : Word) : Prop :=
  readByte (s.pc.setWidth 12) s = w.extractLsb' 8 8 ∧ readByte ((s.pc + 1).setWidth 12) s = w.extractLsb' 0 8

/-- Apply a function to the next state of an answer. -/
def mapNext (f : State → State) : Result → Result
  | .next t => .next (f t)
  | .fault r => .fault r
  | .refused r => .refused r

/-- The linear or toroidal number of the cell of row `r` and column `c` (44_display.md R108), past the buffer or not. -/
def cellNumber (mode : SpriteAddressing) (px py : Byte) (r c : Nat) : Nat :=
  match mode with
  | .linearFault | .linearDrop => (py.toNat + r) * 64 + (px.toNat + c)
  | .toroidal => (py.toNat + r) % 32 * 64 + (px.toNat + c) % 64

/-- Row `r` of the sprite: the byte at `I[11:0] + r` (44_display.md R106). -/
def spriteByte (s : State) (r : Nat) : Byte := readByte (BitVec.ofNat 12 (s.i.toNat % 4096 + r)) s

/-- Some 1 bit of `DRW Vx,Vy,n`'s sprite has the cell `k` (44_display.md R107, R108). -/
def SpriteHits (x y : Reg) (n : Nibble) (s : State) (k : Nat) : Prop :=
  ∃ r c, r < n.toNat ∧ c < 8 ∧ (spriteByte s r).toNat / 2 ^ (7 - c) % 2 = 1
    ∧ cellNumber s.config.spriteAddressing (getV x s) (getV y s) r c = k

/-- The sprite's bytes all lie in memory (44_display.md R106). -/
def SpriteInMemory (n : Nibble) (s : State) : Prop := ∀ r, r < n.toNat → s.i.toNat % 4096 + r ≤ 0xFFF

/-- Under `linear_fault`, the cells of all `8n` bits lie in the buffer (44_display.md R108). -/
def SpriteOnScreen (x y : Reg) (n : Nibble) (s : State) : Prop :=
  s.config.spriteAddressing = .linearFault →
    ∀ r, r < n.toNat → ∀ c, c < 8 → cellNumber .linearFault (getV x s) (getV y s) r c ≤ 2047

/-- The instructions whose rule writes `pc` (40_step.md R71). -/
def writesPc : Instr → Bool
  | .ret | .jp _ | .call _ | .jpV0 _ | .terminator => true
  | .seVxKk _ _ | .sneVxKk _ _ | .seVxVy _ _ | .sneVxVy _ _ => true
  | .cls | .sys _ | .ldI _ | .drw _ _ _ | .unrecognized _ => false
  | .ldVxKk _ _ | .ldVxVy _ _ | .addVxKk _ _ | .addVxVy _ _ | .orVxVy _ _ | .andVxVy _ _ | .xorVxVy _ _ => false
  | .subVxVy _ _ | .subnVxVy _ _ | .shrVx _ _ | .shlVx _ _ | .rndVxKk _ _ => false

/-- The four skips (42_skip.md R84). -/
def isSkip : Instr → Bool
  | .seVxKk _ _ | .sneVxKk _ _ | .seVxVy _ _ | .sneVxVy _ _ => true
  | .terminator | .cls | .ret | .sys _ | .jp _ | .call _ | .jpV0 _ | .ldI _ | .drw _ _ _ | .unrecognized _ => false
  | .ldVxKk _ _ | .ldVxVy _ _ | .addVxKk _ _ | .addVxVy _ _ | .orVxVy _ _ | .andVxVy _ _ | .xorVxVy _ _ => false
  | .subVxVy _ _ | .subnVxVy _ _ | .shrVx _ _ | .shlVx _ _ | .rndVxKk _ _ => false

/-- The condition of a skip (42_skip.md R85 to R88). -/
def skipCondition : Instr → State → Bool
  | .seVxKk x kk, s => getV x s == kk
  | .sneVxKk x kk, s => getV x s != kk
  | .seVxVy x y, s => getV x s == getV y s
  | .sneVxVy x y, s => getV x s != getV y s
  | _, _ => false

end Sys2Proof.Claims

open Sys2Proof Sys2Proof.Machine Sys2Proof.Claims

/-! ### Encoding -/

/-- A word of each of the 16 opcode groups, from the vectors TD of 95_test_vectors.md (for the group 6 the source's own
example S3), decodes to the instruction it stands for, with its fields. -/
def Obligations.SpecWordsDecode : Prop :=
  decode 0x00#8 0x00#8 = .terminator ∧ decode 0x00#8 0xE0#8 = .cls ∧ decode 0x00#8 0xEE#8 = .ret
    ∧ decode 0x00#8 0xE1#8 = .sys 0x0E1#12 ∧ decode 0x1A#8 0xBC#8 = .jp 0xABC#12
    ∧ decode 0x23#8 0x00#8 = .call 0x300#12 ∧ decode 0x43#8 0x42#8 = .sneVxKk 0x3#4 0x42#8
    ∧ decode 0x70#8 0x03#8 = .addVxKk 0x0#4 0x03#8 ∧ decode 0x91#8 0x20#8 = .sneVxVy 0x1#4 0x2#4
    ∧ decode 0xA2#8 0x0C#8 = .ldI 0x20C#12 ∧ decode 0xC3#8 0x0F#8 = .rndVxKk 0x3#4 0x0F#8
    ∧ decode 0xE0#8 0x9E#8 = .unrecognized 0xE09E#16
    ∧ decode 0x3F#8 0x42#8 = .seVxKk 0xF#4 0x42#8 ∧ decode 0x51#8 0x20#8 = .seVxVy 0x1#4 0x2#4
    ∧ decode 0x51#8 0x21#8 = .unrecognized 0x5121#16 ∧ decode 0x60#8 0x05#8 = .ldVxKk 0x0#4 0x05#8
    ∧ decode 0x8A#8 0xB7#8 = .subnVxVy 0xA#4 0xB#4 ∧ decode 0x8A#8 0xBE#8 = .shlVx 0xA#4 0xB#4
    ∧ decode 0xB3#8 0x00#8 = .jpV0 0x300#12 ∧ decode 0xD1#8 0x2F#8 = .drw 0x1#4 0x2#4 0xF#4
    ∧ decode 0xF0#8 0x1E#8 = .unrecognized 0xF01E#16

/-- Every well-formed instruction is recovered from its word, and from its two bytes whatever follows them: no operand
bit is lost (the encodings of 30_encoding.md §3). -/
def Obligations.DecodeOfEncode : Prop :=
  ∀ i : Instr, i.wf = true →
    decodeWord (encode i) = i ∧ ∀ rest, decodeBytes (encodeBytes i ++ rest) = .ok (i, rest)

/-- Decoding is total onto the well-formed instructions, and the instruction still determines the raw word that the
decoder passes through (30_encoding.md §1, §4). -/
def Obligations.EveryWordDecodesAndIsRecovered : Prop :=
  ∀ w : Word, (decodeWord w).wf = true ∧ encode (decodeWord w) = w

/-- A word is of a kind when `w & mask == match`, with the fields at the positions of 30_encoding.md §2, and the words of
no row are unrecognized: the whole table of 30_encoding.md §3. -/
def Obligations.DecodeFollowsMaskAndMatch : Prop :=
  ∀ w : Word,
    let x := w.extractLsb' 8 4
    let y := w.extractLsb' 4 4
    let n := w.extractLsb' 0 4
    let kk := w.extractLsb' 0 8
    let nnn := w.extractLsb' 0 12
    (w = 0x0000#16 → decodeWord w = .terminator) ∧ (w = 0x00E0#16 → decodeWord w = .cls)
    ∧ (w = 0x00EE#16 → decodeWord w = .ret)
    ∧ (w &&& 0xF000#16 = 0x0000#16 → w ≠ 0x0000#16 → w ≠ 0x00E0#16 → w ≠ 0x00EE#16 → decodeWord w = .sys nnn)
    ∧ (w &&& 0xF000#16 = 0x1000#16 → decodeWord w = .jp nnn)
    ∧ (w &&& 0xF000#16 = 0x2000#16 → decodeWord w = .call nnn)
    ∧ (w &&& 0xF000#16 = 0x3000#16 → decodeWord w = .seVxKk x kk)
    ∧ (w &&& 0xF000#16 = 0x4000#16 → decodeWord w = .sneVxKk x kk)
    ∧ (w &&& 0xF00F#16 = 0x5000#16 → decodeWord w = .seVxVy x y)
    ∧ (w &&& 0xF00F#16 = 0x9000#16 → decodeWord w = .sneVxVy x y)
    ∧ (w &&& 0xF000#16 = 0x6000#16 → decodeWord w = .ldVxKk x kk)
    ∧ (w &&& 0xF00F#16 = 0x8000#16 → decodeWord w = .ldVxVy x y)
    ∧ (w &&& 0xF000#16 = 0x7000#16 → decodeWord w = .addVxKk x kk)
    ∧ (w &&& 0xF00F#16 = 0x8004#16 → decodeWord w = .addVxVy x y)
    ∧ (w &&& 0xF00F#16 = 0x8001#16 → decodeWord w = .orVxVy x y)
    ∧ (w &&& 0xF00F#16 = 0x8002#16 → decodeWord w = .andVxVy x y)
    ∧ (w &&& 0xF00F#16 = 0x8003#16 → decodeWord w = .xorVxVy x y)
    ∧ (w &&& 0xF00F#16 = 0x8005#16 → decodeWord w = .subVxVy x y)
    ∧ (w &&& 0xF00F#16 = 0x8007#16 → decodeWord w = .subnVxVy x y)
    ∧ (w &&& 0xF00F#16 = 0x8006#16 → decodeWord w = .shrVx x y)
    ∧ (w &&& 0xF00F#16 = 0x800E#16 → decodeWord w = .shlVx x y)
    ∧ (w &&& 0xF000#16 = 0xA000#16 → decodeWord w = .ldI nnn)
    ∧ (w &&& 0xF000#16 = 0xB000#16 → decodeWord w = .jpV0 nnn)
    ∧ (w &&& 0xF000#16 = 0xC000#16 → decodeWord w = .rndVxKk x kk)
    ∧ (w &&& 0xF000#16 = 0xD000#16 → decodeWord w = .drw x y n)
    ∧ (w &&& 0xF000#16 = 0x5000#16 ∨ w &&& 0xF000#16 = 0x9000#16 → n ≠ 0#4 → decodeWord w = .unrecognized w)
    ∧ (w &&& 0xF000#16 = 0x8000#16 → 8 ≤ n.toNat → n ≠ 0xE#4 → decodeWord w = .unrecognized w)
    ∧ (w &&& 0xF000#16 = 0xE000#16 ∨ w &&& 0xF000#16 = 0xF000#16 → decodeWord w = .unrecognized w)

/-! ### The step -/

/-- A step request in Idle or Running with a fetchable `pc` runs the instruction decoded from the two bytes at `pc`, in
the state whose run state is Running and whose `pc` has advanced by 2 (40_step.md §1; the window is the spec's decision
D5, the Idle case its decision D4). -/
def Obligations.StepRunsTheDecodedInstruction : Prop :=
  ∀ s : State, Ready s →
    step s = exec (decode (readByte (s.pc.setWidth 12) s) (readByte ((s.pc + 1).setWidth 12) s))
      { s with run := .running, pc := s.pc + 2 }

/-- A step request in Idle or Running with a `pc` outside `0x200`..`0xFFE` panics with `FetchOutOfRange` and keeps `pc`
(the spec's decisions D5 and D6). -/
def Obligations.FetchOutsideWindowPanics : Prop :=
  ∀ s : State, (s.run = .idle ∨ s.run = .running) → (s.pc.toNat < 0x200 ∨ 0xFFE < s.pc.toNat) →
    ∃ t, step s = .next t ∧ Panics .fetchOutOfRange s t

/-- A step request in Halted or Panicked changes nothing (40_step.md §1). -/
def Obligations.StoppedStepIsNoOp : Prop :=
  ∀ s : State, (s.run = .halted ∨ s.run = .panicked) → step s = .next s

/-! ### Control transfer -/

/-- `SYS nnn` is a no-op for every `nnn`, and is every word `0nnn` but the three that are the terminator, `CLS` and `RET`
(41_control.md R77). -/
def Obligations.SysIsNoOp : Prop :=
  (∀ (nnn : Addr) (s : State), exec (.sys nnn) s = .next s)
    ∧ (∀ nnn : Addr, nnn ≠ 0x000#12 → nnn ≠ 0x0E0#12 → nnn ≠ 0x0EE#12 → decodeWord (packNnn 0x0#4 nnn) = .sys nnn)
    ∧ decodeWord (packNnn 0x0#4 0x000#12) = .terminator ∧ decodeWord (packNnn 0x0#4 0x0E0#12) = .cls
    ∧ decodeWord (packNnn 0x0#4 0x0EE#12) = .ret

/-- `JP nnn` (41_control.md R79), the word `1nnn`: a target from `0x200` on is jumped to and changes `pc` alone; a lower one panics with
`IllegalTarget`; `JP` to its own address repeats for ever; `JP 0xFFF` is legal and the next fetch faults. -/
def Obligations.JpJumpsOrPanics : Prop :=
  (∀ (nnn : Addr) (s : State), 0x200 ≤ nnn.toNat →
      ∃ t, exec (.jp nnn) s = .next t ∧ t.pc = nnn.setWidth 16 ∧ OnlyChanges (· = .pc) s t)
    ∧ (∀ (nnn : Addr) (s : State), nnn.toNat < 0x200 → Raises (.jp nnn) .illegalTarget s)
    ∧ (∀ (nnn : Addr) (s : State), Ready s → s.run = .running → s.pc = nnn.setWidth 16 →
        WordAt s (0x1000#16 ||| nnn.setWidth 16) → step s = .next s)
    ∧ (∀ s : State, s.run = .running →
        ∃ t u, exec (.jp 0xFFF#12) s = .next t ∧ step t = .next u ∧ Panics .fetchOutOfRange t u)
    ∧ ∀ nnn : Addr, decodeWord (packNnn 0x1#4 nnn) = .jp nnn

/-- `JP V0,nnn`: the sum of `nnn` and `V[0]`, taken without wrap, is jumped to when it is in `0x200`..`0xFFF`, and panics
with `IllegalTarget` otherwise (41_control.md §6; that it is checked at all is the spec's decision D7). -/
def Obligations.JpV0JumpsOrPanics : Prop :=
  ∀ (nnn : Addr) (s : State),
    (0x200 ≤ nnn.toNat + (getV 0#4 s).toNat ∧ nnn.toNat + (getV 0#4 s).toNat ≤ 0xFFF →
      ∃ t, exec (.jpV0 nnn) s = .next t ∧ t.pc.toNat = nnn.toNat + (getV 0#4 s).toNat ∧ OnlyChanges (· = .pc) s t)
    ∧ (nnn.toNat + (getV 0#4 s).toNat < 0x200 ∨ 0xFFF < nnn.toNat + (getV 0#4 s).toNat →
      Raises (.jpV0 nnn) .illegalTarget s)

/-- `CALL nnn` (41_control.md §5; the order of its checks is the spec's decision D8): with a good target and a free slot,
the post-fetch PC goes to `stack[SP]`, `SP` advances and the target is jumped to; a bad target panics with
`IllegalTarget` whatever the stack; a good target with `SP` at 16 or above panics with `StackExceeded`. -/
def Obligations.CallPushesOrPanics : Prop :=
  ∀ (nnn : Addr) (s : State),
    (0x200 ≤ nnn.toNat → s.sp.toNat < 16 →
      ∃ t, exec (.call nnn) s = .next t ∧ stackSlot s.sp.toNat t = some s.pc ∧ t.sp.toNat = s.sp.toNat + 1
        ∧ t.pc = nnn.setWidth 16 ∧ OnlyChanges (fun p => p = .pc ∨ p = .sp ∨ p = .slot s.sp.toNat) s t)
    ∧ (nnn.toNat < 0x200 → Raises (.call nnn) .illegalTarget s)
    ∧ (0x200 ≤ nnn.toNat → 16 ≤ s.sp.toNat → Raises (.call nnn) .stackExceeded s)

/-- `RET` under both settings of `RET_INDEX` (41_control.md §3; the parameter is the spec's decision D9): the slot `SP`
(reference) or `SP - 1` (textbook) goes to `pc`, `SP` retracts, nothing else changes; `SP = 0` panics with
`EmptyCallStack`; under reference `SP = 16` panics with `StackSlotOutOfRange`. Above 16, where the spec gives nothing, the
model stops with its own fault (log entry 12). -/
def Obligations.RetPopsOrPanics : Prop :=
  ∀ s : State,
    (s.config.retIndex = .reference → 0 < s.sp.toNat → s.sp.toNat < 16 →
      ∃ t w, exec .ret s = .next t ∧ stackSlot s.sp.toNat s = some w ∧ t.pc = w ∧ t.sp.toNat + 1 = s.sp.toNat
        ∧ OnlyChanges (fun p => p = .pc ∨ p = .sp) s t)
    ∧ (s.config.retIndex = .textbook → 0 < s.sp.toNat → s.sp.toNat ≤ 16 →
      ∃ t w, exec .ret s = .next t ∧ stackSlot (s.sp.toNat - 1) s = some w ∧ t.pc = w ∧ t.sp.toNat + 1 = s.sp.toNat
        ∧ OnlyChanges (fun p => p = .pc ∨ p = .sp) s t)
    ∧ (s.sp.toNat = 0 → Raises .ret .emptyCallStack s)
    ∧ (s.config.retIndex = .reference → s.sp.toNat = 16 → Raises .ret .stackSlotOutOfRange s)
    ∧ (16 < s.sp.toNat → exec .ret s = .fault .noSuchStackSlot)

/-- `RET` right after `CALL` (41_control.md §3): under textbook it returns to the word after the `CALL`, with `SP` as
before it; under reference it goes to the slot above the one the `CALL` wrote. -/
def Obligations.CallThenRet : Prop :=
  ∀ (nnn : Addr) (s : State), 0x200 ≤ nnn.toNat →
    (s.config.retIndex = .textbook → s.sp.toNat < 16 →
      ∃ t u, exec (.call nnn) s = .next t ∧ exec .ret t = .next u ∧ u.pc = s.pc ∧ u.sp = s.sp)
    ∧ (s.config.retIndex = .reference → s.sp.toNat < 15 →
      ∃ t u, exec (.call nnn) s = .next t ∧ exec .ret t = .next u ∧ some u.pc = stackSlot (s.sp.toNat + 1) s
        ∧ u.sp = s.sp)

/-- The terminator (41_control.md §7; that it halts cleanly is the spec's decision D3): `pc` goes back by 2, the run state
becomes Halted, the fault reason stays, nothing else changes. -/
def Obligations.TerminatorHalts : Prop :=
  ∀ s : State, ∃ t, exec .terminator s = .next t ∧ t.pc = s.pc - 2 ∧ t.run = .halted
    ∧ OnlyChanges (fun p => p = .pc ∨ p = .run) s t

/-- Stepping past the end is idempotent (41_control.md §7): a running machine at a terminator halts with no other change,
and after a continue request the next step gives the same state again. -/
def Obligations.TerminatorIsIdempotent : Prop :=
  ∀ s : State, Ready s → s.run = .running → WordAt s 0x0000#16 →
    step s = .next { s with run := .halted }
      ∧ step (startRequest { s with run := .halted }) = .next { s with run := .halted }

/-- Any unrecognized encoding is fatal (40_step.md R68): executing it takes `InvalidOpcode`, with the post-fetch `pc`. -/
def Obligations.UnrecognizedPanics : Prop :=
  ∀ (raw : Word) (s : State), Raises (.unrecognized raw) .invalidOpcode s

/-! ### Skips -/

/-- `SE Vx,kk` and `SNE Vx,kk` (42_skip.md R85, R86), the words `3xkk` and `4xkk`, for every `x`, `VF` among them: `pc` advances by 2 more exactly when
the condition holds, and nothing else changes. -/
def Obligations.SkipOnImmediate : Prop :=
  ∀ (x : Reg) (kk : Byte) (s : State),
    (∃ t, exec (.seVxKk x kk) s = .next t ∧ t.pc = (if getV x s = kk then s.pc + 2 else s.pc)
      ∧ OnlyChanges (· = .pc) s t)
    ∧ (∃ t, exec (.sneVxKk x kk) s = .next t ∧ t.pc = (if getV x s = kk then s.pc else s.pc + 2)
      ∧ OnlyChanges (· = .pc) s t)
    ∧ decodeWord (packXkk 0x3#4 x kk) = .seVxKk x kk ∧ decodeWord (packXkk 0x4#4 x kk) = .sneVxKk x kk

/-- `SE Vx,Vy` and `SNE Vx,Vy` (42_skip.md R87, R88), the words `5xy0` and `9xy0` (with another last nibble unrecognized),
for every `x` and `y`; with `x = y` the first always skips and the second never does. -/
def Obligations.SkipOnRegisters : Prop :=
  ∀ (x y : Reg) (s : State),
    (∃ t, exec (.seVxVy x y) s = .next t ∧ t.pc = (if getV x s = getV y s then s.pc + 2 else s.pc)
      ∧ OnlyChanges (· = .pc) s t)
    ∧ (∃ t, exec (.sneVxVy x y) s = .next t ∧ t.pc = (if getV x s = getV y s then s.pc else s.pc + 2)
      ∧ OnlyChanges (· = .pc) s t)
    ∧ decodeWord (packXyn 0x5#4 x y 0x0#4) = .seVxVy x y ∧ decodeWord (packXyn 0x9#4 x y 0x0#4) = .sneVxVy x y
    ∧ ∀ n : Nibble, n ≠ 0x0#4 →
        decodeWord (packXyn 0x5#4 x y n) = .unrecognized (packXyn 0x5#4 x y n)
          ∧ decodeWord (packXyn 0x9#4 x y n) = .unrecognized (packXyn 0x9#4 x y n)

/-- The skip action (42_skip.md, its first rule): `pc` advances by 2 more exactly when the condition holds, whatever memory holds, so
the skipped word is neither fetched nor decoded nor checked; no skip writes a register or takes a fatal condition. -/
def Obligations.SkippedWordIsNotRead : Prop :=
  ∀ (i : Instr) (s : State) (m : Memory), isSkip i = true →
    ∃ t, exec i s = .next t ∧ exec i { s with mem := m } = .next { t with mem := m }
      ∧ t.pc = (if skipCondition i s then s.pc + 2 else s.pc) ∧ OnlyChanges (· = .pc) s t

/-! ### Loads and arithmetic -/

/-- `LD Vx,kk` (43_load_alu.md R89), the word `6xkk`. -/
def Obligations.LoadImmediate : Prop :=
  ∀ (x : Reg) (kk : Byte) (s : State),
    (x ≠ 0xF#4 → ∃ t, exec (.ldVxKk x kk) s = .next t ∧ getV x t = kk ∧ OnlyChanges (· = .reg x) s t)
    ∧ (x = 0xF#4 → Raises (.ldVxKk x kk) .reservedRegister s)
    ∧ decodeWord (packXkk 0x6#4 x kk) = .ldVxKk x kk

/-- `LD Vx,Vy` (43_load_alu.md R90), the word `8xy0`, `y = 0xF` included. -/
def Obligations.LoadRegister : Prop :=
  ∀ (x y : Reg) (s : State),
    (x ≠ 0xF#4 → ∃ t, exec (.ldVxVy x y) s = .next t ∧ getV x t = getV y s ∧ OnlyChanges (· = .reg x) s t)
    ∧ (x = 0xF#4 → Raises (.ldVxVy x y) .reservedRegister s)
    ∧ decodeWord (packXyn 0x8#4 x y 0x0#4) = .ldVxVy x y

/-- `ADD Vx,kk` (43_load_alu.md §2): the wrapped sum, and no flag; that `VF` is kept is the spec's decision D10. -/
def Obligations.AddImmediate : Prop :=
  ∀ (x : Reg) (kk : Byte) (s : State),
    (x ≠ 0xF#4 → ∃ t, exec (.addVxKk x kk) s = .next t
      ∧ (getV x t).toNat = ((getV x s).toNat + kk.toNat) % 256 ∧ OnlyChanges (· = .reg x) s t)
    ∧ (x = 0xF#4 → Raises (.addVxKk x kk) .reservedRegister s)

/-- `ADD Vx,Vy` (43_load_alu.md R92), the word `8xy4`: the sum of the old values wrapped, and `VF` is 1 iff that sum exceeds 255, also
when `y` is `VF` itself. -/
def Obligations.AddRegister : Prop :=
  ∀ (x y : Reg) (s : State),
    (x ≠ 0xF#4 → ∃ t, exec (.addVxVy x y) s = .next t
      ∧ (getV x t).toNat = ((getV x s).toNat + (getV y s).toNat) % 256
      ∧ getV 0xF#4 t = flagByte (255 < (getV x s).toNat + (getV y s).toNat)
      ∧ OnlyChanges (fun p => p = .reg x ∨ p = .reg 0xF#4) s t)
    ∧ (x = 0xF#4 → Raises (.addVxVy x y) .reservedRegister s)
    ∧ decodeWord (packXyn 0x8#4 x y 0x4#4) = .addVxVy x y

/-- `OR`, `AND` and `XOR` (43_load_alu.md §3): bitwise, and no flag; that `VF` is kept is the spec's decision D10. -/
def Obligations.BitwiseOperations : Prop :=
  ∀ (x y : Reg) (s : State),
    (x ≠ 0xF#4 →
      (∃ t, exec (.orVxVy x y) s = .next t ∧ getV x t = (getV x s ||| getV y s) ∧ OnlyChanges (· = .reg x) s t)
      ∧ (∃ t, exec (.andVxVy x y) s = .next t ∧ getV x t = (getV x s &&& getV y s) ∧ OnlyChanges (· = .reg x) s t)
      ∧ (∃ t, exec (.xorVxVy x y) s = .next t ∧ getV x t = (getV x s ^^^ getV y s) ∧ OnlyChanges (· = .reg x) s t))
    ∧ (x = 0xF#4 → Raises (.orVxVy x y) .reservedRegister s ∧ Raises (.andVxVy x y) .reservedRegister s
      ∧ Raises (.xorVxVy x y) .reservedRegister s)

/-- `SUB` and `SUBN` (43_load_alu.md §4): `VF` is 1 iff the minuend was strictly greater, and the difference is taken
after that write, so with `y = 0xF` it uses the new flag (the spec's decision D11). -/
def Obligations.Subtractions : Prop :=
  ∀ (x y : Reg) (s : State),
    (x ≠ 0xF#4 →
      (∃ t, exec (.subVxVy x y) s = .next t ∧ getV 0xF#4 t = flagByte ((getV y s).toNat < (getV x s).toNat)
        ∧ getV x t = getV x s - (if y = 0xF#4 then getV 0xF#4 t else getV y s)
        ∧ OnlyChanges (fun p => p = .reg x ∨ p = .reg 0xF#4) s t)
      ∧ (∃ t, exec (.subnVxVy x y) s = .next t ∧ getV 0xF#4 t = flagByte ((getV x s).toNat < (getV y s).toNat)
        ∧ getV x t = (if y = 0xF#4 then getV 0xF#4 t else getV y s) - getV x s
        ∧ OnlyChanges (fun p => p = .reg x ∨ p = .reg 0xF#4) s t))
    ∧ (x = 0xF#4 → Raises (.subVxVy x y) .reservedRegister s ∧ Raises (.subnVxVy x y) .reservedRegister s)

/-- `SHR Vx` (43_load_alu.md R98), the word `8xy6`: halves `V[x]`, `VF` takes the old bit 0, and `y` has no effect. -/
def Obligations.ShiftRight : Prop :=
  ∀ (x y : Reg) (s : State),
    (x ≠ 0xF#4 → ∃ t, exec (.shrVx x y) s = .next t ∧ (getV x t).toNat = (getV x s).toNat / 2
      ∧ (getV 0xF#4 t).toNat = (getV x s).toNat % 2 ∧ OnlyChanges (fun p => p = .reg x ∨ p = .reg 0xF#4) s t)
    ∧ (x = 0xF#4 → Raises (.shrVx x y) .reservedRegister s)
    ∧ (∀ y', exec (.shrVx x y) s = exec (.shrVx x y') s)
    ∧ decodeWord (packXyn 0x8#4 x y 0x6#4) = .shrVx x y

/-- `SHL Vx` (43_load_alu.md R99), the word `8xyE`: doubles `V[x]` modulo 256, `VF` takes the old bit 7, and `y` has no effect. -/
def Obligations.ShiftLeft : Prop :=
  ∀ (x y : Reg) (s : State),
    (x ≠ 0xF#4 → ∃ t, exec (.shlVx x y) s = .next t ∧ (getV x t).toNat = (getV x s).toNat * 2 % 256
      ∧ (getV 0xF#4 t).toNat = (getV x s).toNat / 128 ∧ OnlyChanges (fun p => p = .reg x ∨ p = .reg 0xF#4) s t)
    ∧ (x = 0xF#4 → Raises (.shlVx x y) .reservedRegister s)
    ∧ (∀ y', exec (.shlVx x y) s = exec (.shlVx x y') s)
    ∧ decodeWord (packXyn 0x8#4 x y 0xE#4) = .shlVx x y

/-- `LD I,nnn` (43_load_alu.md R100), the word `Annn`: any `nnn` is stored, and nothing else changes. -/
def Obligations.LoadIndex : Prop :=
  ∀ (nnn : Addr) (s : State),
    (∃ t, exec (.ldI nnn) s = .next t ∧ t.i.toNat = nnn.toNat ∧ OnlyChanges (· = .index) s t)
      ∧ decodeWord (packNnn 0xA#4 nnn) = .ldI nnn

/-- `RND Vx,kk` (43_load_alu.md §7): the draw masked with `kk`, so no bit outside `kk` is set; with `x = 0xF` no draw is
taken. The draw of the step is the free value `Config.rnd` (log entry 10), and the result is as stated for every draw. -/
def Obligations.RandomMasked : Prop :=
  ∀ (x : Reg) (kk : Byte) (s : State),
    exec (.rndVxKk x kk) s = rndWith (Config.rnd s.rndCount) x kk s
    ∧ (x ≠ 0xF#4 → ∃ t, exec (.rndVxKk x kk) s = .next t ∧ getV x t &&& ~~~kk = 0#8 ∧ t.rndCount = s.rndCount + 1
      ∧ OnlyChanges (fun p => p = .reg x ∨ p = .draws) s t)
    ∧ (x ≠ 0xF#4 → ∀ draw, ∃ t, rndWith draw x kk s = .next t ∧ getV x t = draw &&& kk
      ∧ OnlyChanges (fun p => p = .reg x ∨ p = .draws) s t)
    ∧ (x = 0xF#4 → Raises (.rndVxKk x kk) .reservedRegister s)

/-- The reserved-register check (40_step.md §2): an instruction whose explicit destination is `VF` takes
`ReservedRegister` and does nothing else, and no other instruction takes it. -/
def Obligations.ReservedRegisterCheck : Prop :=
  ∀ (i : Instr) (s : State),
    (explicitDest i = some 0xF#4 → Raises i .reservedRegister s)
    ∧ (explicitDest i ≠ some 0xF#4 → s.fault ≠ some .reservedRegister →
        ∀ t, exec i s = .next t → t.fault ≠ some .reservedRegister)

/-! ### Display -/

/-- `CLS` (44_display.md R104), the word `00E0`: every cell 0, nothing else changed, `VF` included; the host's `clear()`
gives the same. -/
def Obligations.ClearScreen : Prop :=
  (∀ s : State, ∃ t, exec .cls s = .next t ∧ (∀ k, k < 2048 → pixel k t = false) ∧ OnlyChanges IsCell s t
      ∧ clearDisplay s = t)
    ∧ decodeWord 0x00E0#16 = .cls

/-- `DRW Vx,Vy,n` where its checks hold (44_display.md §2, §3; the checks and the cell mapping are the spec's decisions
D12 and D13, `n = 0` its decision D14): a cell changes exactly when some 1 bit of the sprite has it; `VF` becomes 1 when
such a cell held 1, and keeps its value otherwise; nothing else changes; with no rows nothing changes at all. -/
def Obligations.DrawTogglesTheSpriteCells : Prop :=
  ∀ (x y : Reg) (n : Nibble) (s : State), SpriteInMemory n s → SpriteOnScreen x y n s →
    (∃ t, exec (.drw x y n) s = .next t
      ∧ (∀ k, k < 2048 → (pixel k t ≠ pixel k s ↔ SpriteHits x y n s k))
      ∧ ((∃ k, k < 2048 ∧ SpriteHits x y n s k ∧ pixel k s = true) → getV 0xF#4 t = 1#8)
      ∧ ((¬ ∃ k, k < 2048 ∧ SpriteHits x y n s k ∧ pixel k s = true) → getV 0xF#4 t = getV 0xF#4 s)
      ∧ OnlyChanges (fun p => IsCell p ∨ p = .reg 0xF#4) s t)
    ∧ (n = 0#4 → exec (.drw x y n) s = .next s)

/-- `DRW`'s checks (44_display.md §2, §3; the spec's decisions D12, D13, D15): a sprite byte past `0xFFF` panics with
`SpriteReadOutOfRange`; otherwise, under `linear_fault`, a cell past the buffer panics with `PixelOutOfRange`, whatever its
bit; both before any write. -/
def Obligations.DrawChecksPanic : Prop :=
  ∀ (x y : Reg) (n : Nibble) (s : State),
    (¬ SpriteInMemory n s → Raises (.drw x y n) .spriteReadOutOfRange s)
    ∧ (SpriteInMemory n s → ¬ SpriteOnScreen x y n s → Raises (.drw x y n) .pixelOutOfRange s)

/-- Drawing the same sprite twice at the same place restores the display, and sets `VF` to 1 the second time if some 1 bit
has a cell (44_display.md §3). The coordinates are not in `VF`, which the first draw may write. -/
def Obligations.DrawTwiceRestores : Prop :=
  ∀ (x y : Reg) (n : Nibble) (s : State), x ≠ 0xF#4 → y ≠ 0xF#4 → SpriteInMemory n s → SpriteOnScreen x y n s →
    ∃ t u, exec (.drw x y n) s = .next t ∧ exec (.drw x y n) t = .next u
      ∧ (∀ k, k < 2048 → pixel k u = pixel k s)
      ∧ ((∃ k, k < 2048 ∧ SpriteHits x y n s k) → getV 0xF#4 u = 1#8)

/-- Under every addressing the cells of one `DRW` are pairwise distinct (44_display.md §2, the derivation that closes the
cell mapping): the model's `Cell(r, c)` is that of the table, and no two bits of a sprite share one. -/
def Obligations.CellsOfOneDrawAreDistinct : Prop :=
  ∀ (mode : SpriteAddressing) (px py : Byte) (r c r' c' k : Nat),
    r < 15 → r' < 15 → c < 8 → c' < 8 →
      (cellOf mode px py r c = some k ↔ k = cellNumber mode px py r c ∧ k < 2048)
      ∧ (cellOf mode px py r c = some k → cellOf mode px py r' c' = some k → r = r' ∧ c = c')

/-! ### Fatal conditions -/

/-- A fatal condition changes the run state and the reason, and nothing else is saved or changed (60_exceptions.md R117):
the faulting address is `pc - 2` after every reason but `FetchOutOfRange`, and `pc` after that one. -/
def Obligations.FatalConditionIsPrecise : Prop :=
  ∀ s t : State, step s = .next t → s.run ≠ .panicked → t.run = .panicked →
    ∃ r, t =
      { s with run := .panicked, fault := some r, pc := if r = .fetchOutOfRange then s.pc else s.pc + 2 }

/-- Only the instructions of its row raise a fatal reason (60_exceptions.md §1). -/
def Obligations.FatalReasonsByInstruction : Prop :=
  ∀ (i : Instr) (s t : State) (r : FatalReason),
    exec i s = .next t → s.run ≠ .panicked → t.run = .panicked → t.fault = some r → mayRaise i r = true

/-- Panicked is terminal until a reset (60_exceptions.md R120): step and start requests do nothing, no other request leaves
it, and reset does, with every piece of state (the model's count of draws apart) at its construction value. -/
def Obligations.PanickedIsLeftOnlyByReset : Prop :=
  ∀ s : State, s.run = .panicked →
    step s = .next s ∧ startRequest s = s
    ∧ (∀ q, q ≠ .reset → ∃ t, serve q s = .next t ∧ t.run = .panicked ∧ t.fault = s.fault)
    ∧ (∃ t, serve .reset s = .next t ∧ t.run = .idle ∧ t.fault = none
        ∧ OnlyChanges (· = .draws) (State.construct s.config) t)

/-! ### Whole-machine rules -/

/-- No instruction writes memory; the only writers are the image load and reset; the words that store in the wider CHIP-8
set, `Fx33` and `Fx55`, are unrecognized (20_memory.md R33). -/
def Obligations.OnlyLoadAndResetWriteMemory : Prop :=
  (∀ (i : Instr) (s t : State), exec i s = .next t → ∀ a, readByte a t = readByte a s)
    ∧ (∀ (q : Request) (s t : State), serve q s = .next t → q ≠ .reset → (∀ img, q ≠ .loadImage img) →
        ∀ a, readByte a t = readByte a s)
    ∧ ∀ x : Reg, decodeWord (packXkk 0xF#4 x 0x33#8) = .unrecognized (packXkk 0xF#4 x 0x33#8)
        ∧ decodeWord (packXkk 0xF#4 x 0x55#8) = .unrecognized (packXkk 0xF#4 x 0x55#8)

/-- The timers are never written by a step or by any request but reset, and the construction record by none
(10_state.md §5, §9, the former the spec's decision D22). -/
def Obligations.TimersAndConfigAreInert : Prop :=
  ∀ (q : Request) (s t : State), serve q s = .next t →
    t.config = s.config ∧ (q ≠ .reset → t.dt = s.dt ∧ t.st = s.st)

/-- The writers of `VF` (10_state.md §1; that no other instruction writes it is the spec's decision D10): `ADD Vx,Vy`,
`SUB`, `SUBN`, `SHR`, `SHL`, and `DRW`; after a write it holds 0 or 1, and after `DRW`'s it holds 1. -/
def Obligations.FlagWriters : Prop :=
  ∀ (i : Instr) (s t : State), exec i s = .next t → getV 0xF#4 t ≠ getV 0xF#4 s →
    (writesFlag i = true ∧ (getV 0xF#4 t = 0#8 ∨ getV 0xF#4 t = 1#8))
      ∨ (∃ x y n, i = .drw x y n ∧ getV 0xF#4 t = 1#8)

/-- An instruction whose rule does not write `pc` leaves it at the post-fetch PC; a skip adds 2 when its condition holds,
the terminator subtracts 2, and the others that write it are `RET`, `JP`, `CALL` and `JP V0,nnn`, with their target
(40_step.md R71); where such an instruction panics, `pc` stays. -/
def Obligations.PcWriters : Prop :=
  ∀ (i : Instr) (s t : State), exec i s = .next t →
    (writesPc i = false → t.pc = s.pc)
    ∧ (isSkip i = true → t.pc = if skipCondition i s then s.pc + 2 else s.pc)
    ∧ (i = .terminator → t.pc = s.pc - 2)
    ∧ (∀ nnn, i = .jp nnn ∨ i = .call nnn → (t.run = .panicked ∧ t.pc = s.pc) ∨ t.pc = nnn.setWidth 16)
    ∧ (∀ nnn, i = .jpV0 nnn →
        (t.run = .panicked ∧ t.pc = s.pc) ∨ t.pc = nnn.setWidth 16 + (getV 0#4 s).setWidth 16)
    ∧ (i = .ret → (t.run = .panicked ∧ t.pc = s.pc) ∨ ∃ j, stackSlot j s = some t.pc)

/-- The stack pointer (10_state.md §4): it starts at 0, `CALL` increments it below 16, `RET` decrements it above 0, no
other instruction writes it, and so it stays in 0..16. -/
def Obligations.StackPointerWriters : Prop :=
  (∀ c, (State.construct c).sp = 0#8)
    ∧ ∀ (i : Instr) (s t : State), exec i s = .next t →
      (t.sp = s.sp ∨ (∃ nnn, i = .call nnn ∧ s.sp.toNat < 16 ∧ t.sp.toNat = s.sp.toNat + 1)
        ∨ (i = .ret ∧ 0 < s.sp.toNat ∧ t.sp.toNat + 1 = s.sp.toNat))
      ∧ (s.sp.toNat ≤ 16 → t.sp.toNat ≤ 16)

/-- The stack slots (10_state.md §4): only `CALL` writes one, the slot `SP` before it advances, with the post-fetch PC. -/
def Obligations.StackSlotWriters : Prop :=
  ∀ (i : Instr) (s t : State) (j : Nat), exec i s = .next t →
    stackSlot j t = stackSlot j s
      ∨ (j = s.sp.toNat ∧ stackSlot j t = some s.pc ∧ ∃ nnn, i = .call nnn ∧ t.sp.toNat = s.sp.toNat + 1)

/-- The index register (10_state.md R16): `LD I,nnn` is its only writer, `DRW` its only reader, and `DRW` reads only its
low 12 bits. -/
def Obligations.IndexRegisterUse : Prop :=
  (∀ (i : Instr) (s t : State), exec i s = .next t → t.i = s.i ∨ ∃ nnn, i = .ldI nnn ∧ t.i = nnn.setWidth 16)
    ∧ (∀ (i : Instr) (s : State) (w : Word), (∀ x y n, i ≠ .drw x y n) → (∀ nnn, i ≠ .ldI nnn) →
        exec i (setI w s) = mapNext (setI w) (exec i s))
    ∧ (∀ (nnn : Addr) (s : State) (w : Word), exec (.ldI nnn) (setI w s) = exec (.ldI nnn) s)
    ∧ (∀ (x y : Reg) (n : Nibble) (s : State) (w : Word), w.toNat % 4096 = s.i.toNat % 4096 →
        exec (.drw x y n) (setI w s) = mapNext (setI w) (exec (.drw x y n) s))

/-- The display is mutated only by `CLS` and `DRW` among instructions (10_state.md §6); the host's requests that mutate it
are its clear, fill and randomize, and reset. -/
def Obligations.DisplayWriters : Prop :=
  (∀ (i : Instr) (s t : State), exec i s = .next t → i ≠ .cls → (∀ x y n, i ≠ .drw x y n) →
      ∀ k, pixel k t = pixel k s)
    ∧ (∀ (q : Request) (s t : State), serve q s = .next t → q ≠ .step → q ≠ .reset → q ≠ .displayClear →
        q ≠ .displayFill → (∀ d, q ≠ .displayRandomize d) → ∀ k, pixel k t = pixel k s)

/-- The transitions of the run state are exactly those of the table (10_state.md R23): a step leaves Idle or Running for
Halted exactly when it executed the terminator, and for Panicked only with a reason; reset also puts every field to its
construction value. -/
def Obligations.RunStateTransitions : Prop :=
  ∀ (q : Request) (s t : State), serve q s = .next t →
    (q = .step → (s.run = .halted ∨ s.run = .panicked) → t.run = s.run)
    ∧ (q = .step → (s.run = .idle ∨ s.run = .running) →
        t.run ≠ .idle ∧ (t.run = .halted ↔ fetchable s.pc = true ∧ fetchedInstr s = .terminator)
          ∧ (t.run = .panicked → t.fault ≠ none))
    ∧ (q = .start → t.run = if s.run = .idle ∨ s.run = .halted then .running else s.run)
    ∧ (q = .stop → t.run = if s.run = .running then .halted else s.run)
    ∧ (q = .reset → t.run = .idle ∧ OnlyChanges (· = .draws) (State.construct s.config) t)
    ∧ (q ≠ .step → q ≠ .start → q ≠ .stop → q ≠ .reset → t.run = s.run)

/-! ### Invariants -/

/-- The invariant holds in the machine just constructed from any well-formed record, and in the machine after reset
(10_state.md §10; the values of the OPEN parameters at `State.reset` are the model's, log entries 2 to 9). -/
def Obligations.ConstructionMeetsInv : Prop :=
  (∀ c : Config, c.wf = true → (State.construct c).Inv) ∧ State.reset.Inv

/-- Every step keeps the invariant (10_state.md §10): `SP` in 0..16, Panicked exactly when there is a reason, memory in
canonical form. -/
def Obligations.StepKeepsInv : Prop := ∀ s t : State, s.Inv → step s = .next t → t.Inv

/-- Every other request keeps it (40_step.md §4). -/
def Obligations.HostRequestsKeepInv : Prop :=
  ∀ (q : Request) (s t : State), q ≠ .step → s.Inv → serve q s = .next t → t.Inv

/-- No behaviour of the core is stuck (93_implementation_defined.md Part 1): from the invariant every request, a step
among them, answers a next state, whatever memory holds. -/
def Obligations.EveryRequestAnswers : Prop := ∀ (q : Request) (s : State), s.Inv → ∃ t, serve q s = .next t

/-- `I` is at most `0xFFF`, or still holds its construction value (10_state.md §2, §10): every step keeps it. -/
def Obligations.StepKeepsIndexBounded : Prop :=
  ∀ s t : State, s.indexBounded → step s = .next t → t.indexBounded

/-- Between steps `pc` is at most `0x1002` or a construction value of the stack that `RET` restored, and a slot is at most
`0x1000` or holds its construction value (10_state.md §3, §4): every step keeps it, and construction gives it. -/
def Obligations.StepKeepsPcBounded : Prop :=
  (∀ c : Config, (State.construct c).slotsBounded ∧ (State.construct c).pcBounded)
    ∧ ∀ s t : State, s.slotsBounded → s.pcBounded → step s = .next t → t.slotsBounded ∧ t.pcBounded

/-! ### Reset, construction, image load, host requests -/

/-- Reset, from any run state, puts every field to its construction value, memory included (70_reset_and_hazards.md §1; what
reset restores is the spec's decision D17); the model's count of draws goes on (log entry 11). -/
def Obligations.ResetRestoresConstruction : Prop :=
  ∀ s : State, ∃ t, serve .reset s = .next t ∧ t = { State.construct s.config with rndCount := s.rndCount }
    ∧ t.run = .idle ∧ t.fault = none ∧ t.pc = 0x200#16 ∧ t.sp = 0#8 ∧ (∀ r : Reg, getV r t = s.config.initV[r.toNat])
    ∧ t.i = s.config.initI ∧ t.stack = s.config.initStack ∧ t.dt = s.config.initDT ∧ t.st = s.config.initST
    ∧ t.disp = s.config.initDisplay

/-- The construction content of memory (70_reset_and_hazards.md §1, 20_memory.md §1; the parameters are the spec's decisions
D17 and D18): the glyph bytes from `FONT_BASE` on, and elsewhere the initial content of the two regions. -/
def Obligations.ConstructionMemory : Prop :=
  ∀ (c : Config) (a : Addr), c.wf = true →
    readByte a (State.construct c) =
      if h : c.fontBase.toNat ≤ a.toNat ∧ a.toNat < c.fontBase.toNat + 80 then
        c.fontGlyphs[a.toNat - c.fontBase.toNat]'(by omega)
      else if a.toNat < 0x200 then Memory.lookup c.reservedInit a.toNat
      else Memory.lookup c.programInit a.toNat

/-- The image load (20_memory.md §7; that it writes nothing else is the spec's decision D19): the program region holds the
image from `0x200` on and zeros after it, bytes past the region are dropped, and no other piece of the state changes. -/
def Obligations.ImageLoadFillsProgramRegion : Prop :=
  ∀ (img : List Byte) (s : State), Memory.wf s.mem = true →
    ∃ t, serve (.loadImage img) s = .next t
      ∧ (∀ a : Addr, readByte a t =
          if a.toNat < 0x200 then readByte a s else img[a.toNat - 0x200]?.getD 0#8)
      ∧ OnlyChanges (fun p => ∃ a, p = .byte a) s t

/-- Start and stop (40_step.md §4, the spec's decision D4) execute no instruction: they change the run state alone. -/
def Obligations.StartAndStopChangeRunAlone : Prop :=
  ∀ s : State,
    (∃ t, serve .start s = .next t ∧ OnlyChanges (· = .run) s t
      ∧ t.run = match s.run with
        | .idle | .halted | .running => .running
        | .panicked => .panicked)
    ∧ (∃ t, serve .stop s = .next t ∧ OnlyChanges (· = .run) s t
      ∧ t.run = match s.run with
        | .running | .halted => .halted
        | .idle => .idle
        | .panicked => .panicked)

/-- The display's host operations (44_display.md §4): clear zero-fills, fill sets every pixel, randomize sets each pixel
to a free draw; none writes anything but cells. -/
def Obligations.DisplayRequests : Prop :=
  ∀ (s : State) (draw : Screen),
    (∃ t, serve .displayClear s = .next t ∧ (∀ k, k < 2048 → pixel k t = false) ∧ OnlyChanges IsCell s t)
    ∧ (∃ t, serve .displayFill s = .next t ∧ (∀ k, k < 2048 → pixel k t = true) ∧ OnlyChanges IsCell s t)
    ∧ (∃ t, serve (.displayRandomize draw) s = .next t ∧ (∀ k, k < 2048 → pixel k t = draw.getLsbD k)
      ∧ OnlyChanges IsCell s t)

/-! ### Runs -/

/-- The end of a run (40_step.md R75). Once a run has ended, no further step request changes anything. A run of step
requests from Idle or Running with no fault reason that has ended, ended well or ended badly, not both, and well exactly
when it is Halted; one that met no terminator and did not panic has not ended. For every number of steps some run of that
many steps has not ended. No stop request is made in a run. -/
def Obligations.RunsEndWellOrBadly : Prop :=
  (∀ (n m : Nat) (s t : State), RunEnded n s t → runSteps (n + m) s = .next t)
    ∧ (∀ (n : Nat) (s t : State), (s.run = .idle ∨ s.run = .running) → s.fault = none → RunEnded n s t →
        (RunEndedWell n s t ↔ t.run = .halted) ∧ (RunEndedBadly n s t ↔ t.run = .panicked))
    ∧ (∀ (n : Nat) (s t : State), (s.run = .idle ∨ s.run = .running) → runSteps n s = .next t →
        (∀ k u, k < n → runSteps k s = .next u → ¬ u.executesTerminator) → t.run ≠ .panicked → ¬ t.ended)
    ∧ ∀ n : Nat, ∃ s t, s.run = .running ∧ runSteps n s = .next t ∧ ¬ t.ended
end

