-- ==== Sys2Proof/Laws/Decode.lean ====
section
/-! SUPPORT. The bits of a packed word, the fields of a packed word, and a word from its fields. -/

namespace Sys2Proof

theorem getLsbD_packNnn (h : Nibble) (nnn : Addr) (k : Nat) :
    (packNnn h nnn).getLsbD k = if k < 12 then nnn.getLsbD k else h.getLsbD (k - 12) :=
  BitVec.getLsbD_append

theorem getLsbD_packXkk (h : Nibble) (x : Reg) (kk : Byte) (k : Nat) :
    (packXkk h x kk).getLsbD k =
      if k < 8 then kk.getLsbD k else if k < 12 then x.getLsbD (k - 8) else h.getLsbD (k - 12) := by
  refine (BitVec.getLsbD_append (x := h ++ x) (y := kk)).trans ?_
  rw [BitVec.getLsbD_append]
  split
  · rfl
  · split <;> split <;> first | rfl | omega

theorem getLsbD_packXyn (h : Nibble) (x y : Reg) (d : Nibble) (k : Nat) :
    (packXyn h x y d).getLsbD k =
      if k < 4 then d.getLsbD k else if k < 8 then y.getLsbD (k - 4)
      else if k < 12 then x.getLsbD (k - 8) else h.getLsbD (k - 12) := by
  refine (BitVec.getLsbD_append (x := h ++ x ++ y) (y := d)).trans ?_
  rw [BitVec.getLsbD_append, BitVec.getLsbD_append, Nat.sub_sub, Nat.sub_sub]
  by_cases h0 : k < 4
  · simp only [h0, if_true]
  · by_cases h1 : k < 8
    · simp only [h0, h1, show k - 4 < 4 by omega, if_true, if_false]
    · by_cases h2 : k < 12
      · simp only [h0, h1, h2, show ¬ k - 4 < 4 by omega, show k - (4 + 4) < 4 by omega, if_true, if_false]
      · simp only [h0, h1, h2, show ¬ k - 4 < 4 by omega, show ¬ k - (4 + 4) < 4 by omega, if_false]

theorem getLsbD_wordOfBytes (b0 b1 : Byte) (k : Nat) :
    (wordOfBytes b0 b1).getLsbD k = if k < 8 then b1.getLsbD k else b0.getLsbD (k - 8) :=
  BitVec.getLsbD_append

theorem getLsbD_hField (w : Word) (k : Nat) : (hField w).getLsbD k = (decide (k < 4) && w.getLsbD (12 + k)) := by
  simp [hField]

theorem getLsbD_xField (w : Word) (k : Nat) : (xField w).getLsbD k = (decide (k < 4) && w.getLsbD (8 + k)) := by
  simp [xField]

theorem getLsbD_yField (w : Word) (k : Nat) : (yField w).getLsbD k = (decide (k < 4) && w.getLsbD (4 + k)) := by
  simp [yField]

theorem getLsbD_nField (w : Word) (k : Nat) : (nField w).getLsbD k = (decide (k < 4) && w.getLsbD k) := by
  simp [nField]

theorem getLsbD_kkField (w : Word) (k : Nat) : (kkField w).getLsbD k = (decide (k < 8) && w.getLsbD k) := by
  simp [kkField]

theorem getLsbD_nnnField (w : Word) (k : Nat) : (nnnField w).getLsbD k = (decide (k < 12) && w.getLsbD k) := by
  simp [nnnField]

@[simp] theorem hField_packNnn (h : Nibble) (nnn : Addr) : hField (packNnn h nnn) = h := by
  apply BitVec.eq_of_getLsbD_eq; intro k hk
  have h1 : ¬ 12 + k < 12 := by omega
  have h2 : 12 + k - 12 = k := by omega
  simp only [getLsbD_hField, getLsbD_packNnn, hk, h1, h2, decide_true, Bool.true_and, if_false]

@[simp] theorem nnnField_packNnn (h : Nibble) (nnn : Addr) : nnnField (packNnn h nnn) = nnn := by
  apply BitVec.eq_of_getLsbD_eq; intro k hk
  simp only [getLsbD_nnnField, getLsbD_packNnn, hk, decide_true, Bool.true_and, if_true]

@[simp] theorem hField_packXkk (h : Nibble) (x : Reg) (kk : Byte) : hField (packXkk h x kk) = h := by
  apply BitVec.eq_of_getLsbD_eq; intro k hk
  have h1 : ¬ 12 + k < 8 := by omega
  have h2 : ¬ 12 + k < 12 := by omega
  have h3 : 12 + k - 12 = k := by omega
  simp only [getLsbD_hField, getLsbD_packXkk, hk, h1, h2, h3, decide_true, Bool.true_and, if_false]

@[simp] theorem xField_packXkk (h : Nibble) (x : Reg) (kk : Byte) : xField (packXkk h x kk) = x := by
  apply BitVec.eq_of_getLsbD_eq; intro k hk
  have h1 : ¬ 8 + k < 8 := by omega
  have h2 : 8 + k < 12 := by omega
  have h3 : 8 + k - 8 = k := by omega
  simp only [getLsbD_xField, getLsbD_packXkk, hk, h1, h2, h3, decide_true, Bool.true_and, if_true, if_false]

@[simp] theorem kkField_packXkk (h : Nibble) (x : Reg) (kk : Byte) : kkField (packXkk h x kk) = kk := by
  apply BitVec.eq_of_getLsbD_eq; intro k hk
  simp only [getLsbD_kkField, getLsbD_packXkk, hk, decide_true, Bool.true_and, if_true]

@[simp] theorem hField_packXyn (h : Nibble) (x y : Reg) (d : Nibble) : hField (packXyn h x y d) = h := by
  apply BitVec.eq_of_getLsbD_eq; intro k hk
  have h1 : ¬ 12 + k < 4 := by omega
  have h2 : ¬ 12 + k < 8 := by omega
  have h3 : ¬ 12 + k < 12 := by omega
  have h4 : 12 + k - 12 = k := by omega
  simp only [getLsbD_hField, getLsbD_packXyn, hk, h1, h2, h3, h4, decide_true, Bool.true_and, if_false]

@[simp] theorem xField_packXyn (h : Nibble) (x y : Reg) (d : Nibble) : xField (packXyn h x y d) = x := by
  apply BitVec.eq_of_getLsbD_eq; intro k hk
  have h1 : ¬ 8 + k < 4 := by omega
  have h2 : ¬ 8 + k < 8 := by omega
  have h3 : 8 + k < 12 := by omega
  have h4 : 8 + k - 8 = k := by omega
  simp only [getLsbD_xField, getLsbD_packXyn, hk, h1, h2, h3, h4, decide_true, Bool.true_and, if_true, if_false]

@[simp] theorem yField_packXyn (h : Nibble) (x y : Reg) (d : Nibble) : yField (packXyn h x y d) = y := by
  apply BitVec.eq_of_getLsbD_eq; intro k hk
  have h1 : ¬ 4 + k < 4 := by omega
  have h2 : 4 + k < 8 := by omega
  have h3 : 4 + k - 4 = k := by omega
  simp only [getLsbD_yField, getLsbD_packXyn, hk, h1, h2, h3, decide_true, Bool.true_and, if_true, if_false]

@[simp] theorem nField_packXyn (h : Nibble) (x y : Reg) (d : Nibble) : nField (packXyn h x y d) = d := by
  apply BitVec.eq_of_getLsbD_eq; intro k hk
  simp only [getLsbD_nField, getLsbD_packXyn, hk, decide_true, Bool.true_and, if_true]

/-- A word is its opcode nibble and its `nnn` field. -/
theorem packNnn_fields (w : Word) : packNnn (hField w) (nnnField w) = w := by
  apply BitVec.eq_of_getLsbD_eq; intro k hk
  by_cases h : k < 12
  · simp only [getLsbD_packNnn, getLsbD_nnnField, h, decide_true, Bool.true_and, if_true]
  · have h2 : k - 12 < 4 := by omega
    have h3 : 12 + (k - 12) = k := by omega
    simp only [getLsbD_packNnn, getLsbD_hField, h, h2, h3, decide_true, Bool.true_and, if_false]

/-- A word is its opcode nibble, its `x` and its `kk` field. -/
theorem packXkk_fields (w : Word) : packXkk (hField w) (xField w) (kkField w) = w := by
  apply BitVec.eq_of_getLsbD_eq; intro k hk
  by_cases h : k < 8
  · simp only [getLsbD_packXkk, getLsbD_kkField, h, decide_true, Bool.true_and, if_true]
  · by_cases h' : k < 12
    · have h2 : k - 8 < 4 := by omega
      have h3 : 8 + (k - 8) = k := by omega
      simp only [getLsbD_packXkk, getLsbD_xField, h, h', h2, h3, decide_true, Bool.true_and, if_true, if_false]
    · have h2 : k - 12 < 4 := by omega
      have h3 : 12 + (k - 12) = k := by omega
      simp only [getLsbD_packXkk, getLsbD_hField, h, h', h2, h3, decide_true, Bool.true_and, if_false]

/-- A word is its four nibbles. -/
theorem packXyn_fields (w : Word) : packXyn (hField w) (xField w) (yField w) (nField w) = w := by
  apply BitVec.eq_of_getLsbD_eq; intro k hk
  by_cases h0 : k < 4
  · simp only [getLsbD_packXyn, getLsbD_nField, h0, decide_true, Bool.true_and, if_true]
  · by_cases h1 : k < 8
    · have h2 : k - 4 < 4 := by omega
      have h3 : 4 + (k - 4) = k := by omega
      simp only [getLsbD_packXyn, getLsbD_yField, h0, h1, h2, h3, decide_true, Bool.true_and, if_true, if_false]
    · by_cases h1' : k < 12
      · have h2 : k - 8 < 4 := by omega
        have h3 : 8 + (k - 8) = k := by omega
        simp only [getLsbD_packXyn, getLsbD_xField, h0, h1, h1', h2, h3, decide_true, Bool.true_and, if_true, if_false]
      · have h2 : k - 12 < 4 := by omega
        have h3 : 12 + (k - 12) = k := by omega
        simp only [getLsbD_packXyn, getLsbD_hField, h0, h1, h1', h2, h3, decide_true, Bool.true_and, if_false]

/-- A word is its two bytes in memory order. -/
@[simp] theorem wordOfBytes_bytes (w : Word) : wordOfBytes (firstByte w) (secondByte w) = w := by
  apply BitVec.eq_of_getLsbD_eq; intro k hk
  by_cases h : k < 8
  · simp [getLsbD_wordOfBytes, secondByte, h]
  · have h2 : k - 8 < 8 := by omega
    have h3 : 8 + (k - 8) = k := by omega
    simp [getLsbD_wordOfBytes, firstByte, h, h2, h3]

/-- Decoding the two bytes of a word is decoding the word. -/
@[simp] theorem decode_bytes (w : Word) : decode (firstByte w) (secondByte w) = decodeWord w := by
  simp [decode]

end Sys2Proof
end

