-- ==== Sys2Proof/Laws/State.lean ====
section
/-! SUPPORT. Each update of a state, field by field: what it sets and what it leaves. -/

namespace Sys2Proof.Machine

variable (s : State)

@[simp] theorem setV_v (x : Reg) (b : Byte) : (setV x b s).v = s.v.set x.toNat b x.isLt := rfl
@[simp] theorem setV_i (x : Reg) (b : Byte) : (setV x b s).i = s.i := rfl
@[simp] theorem setV_pc (x : Reg) (b : Byte) : (setV x b s).pc = s.pc := rfl
@[simp] theorem setV_sp (x : Reg) (b : Byte) : (setV x b s).sp = s.sp := rfl
@[simp] theorem setV_stack (x : Reg) (b : Byte) : (setV x b s).stack = s.stack := rfl
@[simp] theorem setV_dt (x : Reg) (b : Byte) : (setV x b s).dt = s.dt := rfl
@[simp] theorem setV_st (x : Reg) (b : Byte) : (setV x b s).st = s.st := rfl
@[simp] theorem setV_disp (x : Reg) (b : Byte) : (setV x b s).disp = s.disp := rfl
@[simp] theorem setV_mem (x : Reg) (b : Byte) : (setV x b s).mem = s.mem := rfl
@[simp] theorem setV_run (x : Reg) (b : Byte) : (setV x b s).run = s.run := rfl
@[simp] theorem setV_fault (x : Reg) (b : Byte) : (setV x b s).fault = s.fault := rfl
@[simp] theorem setV_config (x : Reg) (b : Byte) : (setV x b s).config = s.config := rfl
@[simp] theorem setV_rndCount (x : Reg) (b : Byte) : (setV x b s).rndCount = s.rndCount := rfl

@[simp] theorem setFlag_v (f : Bool) : (setFlag f s).v = s.v.set flagReg.toNat (if f then 0x01#8 else 0x00#8) flagReg.isLt := rfl
@[simp] theorem setFlag_i (f : Bool) : (setFlag f s).i = s.i := rfl
@[simp] theorem setFlag_pc (f : Bool) : (setFlag f s).pc = s.pc := rfl
@[simp] theorem setFlag_sp (f : Bool) : (setFlag f s).sp = s.sp := rfl
@[simp] theorem setFlag_stack (f : Bool) : (setFlag f s).stack = s.stack := rfl
@[simp] theorem setFlag_dt (f : Bool) : (setFlag f s).dt = s.dt := rfl
@[simp] theorem setFlag_st (f : Bool) : (setFlag f s).st = s.st := rfl
@[simp] theorem setFlag_disp (f : Bool) : (setFlag f s).disp = s.disp := rfl
@[simp] theorem setFlag_mem (f : Bool) : (setFlag f s).mem = s.mem := rfl
@[simp] theorem setFlag_run (f : Bool) : (setFlag f s).run = s.run := rfl
@[simp] theorem setFlag_fault (f : Bool) : (setFlag f s).fault = s.fault := rfl
@[simp] theorem setFlag_config (f : Bool) : (setFlag f s).config = s.config := rfl
@[simp] theorem setFlag_rndCount (f : Bool) : (setFlag f s).rndCount = s.rndCount := rfl

@[simp] theorem setI_v (w : Word) : (setI w s).v = s.v := rfl
@[simp] theorem setI_i (w : Word) : (setI w s).i = w := rfl
@[simp] theorem setI_pc (w : Word) : (setI w s).pc = s.pc := rfl
@[simp] theorem setI_sp (w : Word) : (setI w s).sp = s.sp := rfl
@[simp] theorem setI_stack (w : Word) : (setI w s).stack = s.stack := rfl
@[simp] theorem setI_dt (w : Word) : (setI w s).dt = s.dt := rfl
@[simp] theorem setI_st (w : Word) : (setI w s).st = s.st := rfl
@[simp] theorem setI_disp (w : Word) : (setI w s).disp = s.disp := rfl
@[simp] theorem setI_mem (w : Word) : (setI w s).mem = s.mem := rfl
@[simp] theorem setI_run (w : Word) : (setI w s).run = s.run := rfl
@[simp] theorem setI_fault (w : Word) : (setI w s).fault = s.fault := rfl
@[simp] theorem setI_config (w : Word) : (setI w s).config = s.config := rfl
@[simp] theorem setI_rndCount (w : Word) : (setI w s).rndCount = s.rndCount := rfl

@[simp] theorem setPc_v (w : Word) : (setPc w s).v = s.v := rfl
@[simp] theorem setPc_i (w : Word) : (setPc w s).i = s.i := rfl
@[simp] theorem setPc_pc (w : Word) : (setPc w s).pc = w := rfl
@[simp] theorem setPc_sp (w : Word) : (setPc w s).sp = s.sp := rfl
@[simp] theorem setPc_stack (w : Word) : (setPc w s).stack = s.stack := rfl
@[simp] theorem setPc_dt (w : Word) : (setPc w s).dt = s.dt := rfl
@[simp] theorem setPc_st (w : Word) : (setPc w s).st = s.st := rfl
@[simp] theorem setPc_disp (w : Word) : (setPc w s).disp = s.disp := rfl
@[simp] theorem setPc_mem (w : Word) : (setPc w s).mem = s.mem := rfl
@[simp] theorem setPc_run (w : Word) : (setPc w s).run = s.run := rfl
@[simp] theorem setPc_fault (w : Word) : (setPc w s).fault = s.fault := rfl
@[simp] theorem setPc_config (w : Word) : (setPc w s).config = s.config := rfl
@[simp] theorem setPc_rndCount (w : Word) : (setPc w s).rndCount = s.rndCount := rfl

@[simp] theorem advancePc_v : (advancePc s).v = s.v := rfl
@[simp] theorem advancePc_i : (advancePc s).i = s.i := rfl
@[simp] theorem advancePc_pc : (advancePc s).pc = s.pc + 2#16 := rfl
@[simp] theorem advancePc_sp : (advancePc s).sp = s.sp := rfl
@[simp] theorem advancePc_stack : (advancePc s).stack = s.stack := rfl
@[simp] theorem advancePc_dt : (advancePc s).dt = s.dt := rfl
@[simp] theorem advancePc_st : (advancePc s).st = s.st := rfl
@[simp] theorem advancePc_disp : (advancePc s).disp = s.disp := rfl
@[simp] theorem advancePc_mem : (advancePc s).mem = s.mem := rfl
@[simp] theorem advancePc_run : (advancePc s).run = s.run := rfl
@[simp] theorem advancePc_fault : (advancePc s).fault = s.fault := rfl
@[simp] theorem advancePc_config : (advancePc s).config = s.config := rfl
@[simp] theorem advancePc_rndCount : (advancePc s).rndCount = s.rndCount := rfl

@[simp] theorem rewindPc_v : (rewindPc s).v = s.v := rfl
@[simp] theorem rewindPc_i : (rewindPc s).i = s.i := rfl
@[simp] theorem rewindPc_pc : (rewindPc s).pc = s.pc - 2#16 := rfl
@[simp] theorem rewindPc_sp : (rewindPc s).sp = s.sp := rfl
@[simp] theorem rewindPc_stack : (rewindPc s).stack = s.stack := rfl
@[simp] theorem rewindPc_dt : (rewindPc s).dt = s.dt := rfl
@[simp] theorem rewindPc_st : (rewindPc s).st = s.st := rfl
@[simp] theorem rewindPc_disp : (rewindPc s).disp = s.disp := rfl
@[simp] theorem rewindPc_mem : (rewindPc s).mem = s.mem := rfl
@[simp] theorem rewindPc_run : (rewindPc s).run = s.run := rfl
@[simp] theorem rewindPc_fault : (rewindPc s).fault = s.fault := rfl
@[simp] theorem rewindPc_config : (rewindPc s).config = s.config := rfl
@[simp] theorem rewindPc_rndCount : (rewindPc s).rndCount = s.rndCount := rfl

@[simp] theorem setRun_v (r : RunState) : (setRun r s).v = s.v := rfl
@[simp] theorem setRun_i (r : RunState) : (setRun r s).i = s.i := rfl
@[simp] theorem setRun_pc (r : RunState) : (setRun r s).pc = s.pc := rfl
@[simp] theorem setRun_sp (r : RunState) : (setRun r s).sp = s.sp := rfl
@[simp] theorem setRun_stack (r : RunState) : (setRun r s).stack = s.stack := rfl
@[simp] theorem setRun_dt (r : RunState) : (setRun r s).dt = s.dt := rfl
@[simp] theorem setRun_st (r : RunState) : (setRun r s).st = s.st := rfl
@[simp] theorem setRun_disp (r : RunState) : (setRun r s).disp = s.disp := rfl
@[simp] theorem setRun_mem (r : RunState) : (setRun r s).mem = s.mem := rfl
@[simp] theorem setRun_run (r : RunState) : (setRun r s).run = r := rfl
@[simp] theorem setRun_fault (r : RunState) : (setRun r s).fault = s.fault := rfl
@[simp] theorem setRun_config (r : RunState) : (setRun r s).config = s.config := rfl
@[simp] theorem setRun_rndCount (r : RunState) : (setRun r s).rndCount = s.rndCount := rfl

@[simp] theorem setDisp_v (d : Screen) : (setDisp d s).v = s.v := rfl
@[simp] theorem setDisp_i (d : Screen) : (setDisp d s).i = s.i := rfl
@[simp] theorem setDisp_pc (d : Screen) : (setDisp d s).pc = s.pc := rfl
@[simp] theorem setDisp_sp (d : Screen) : (setDisp d s).sp = s.sp := rfl
@[simp] theorem setDisp_stack (d : Screen) : (setDisp d s).stack = s.stack := rfl
@[simp] theorem setDisp_dt (d : Screen) : (setDisp d s).dt = s.dt := rfl
@[simp] theorem setDisp_st (d : Screen) : (setDisp d s).st = s.st := rfl
@[simp] theorem setDisp_disp (d : Screen) : (setDisp d s).disp = d := rfl
@[simp] theorem setDisp_mem (d : Screen) : (setDisp d s).mem = s.mem := rfl
@[simp] theorem setDisp_run (d : Screen) : (setDisp d s).run = s.run := rfl
@[simp] theorem setDisp_fault (d : Screen) : (setDisp d s).fault = s.fault := rfl
@[simp] theorem setDisp_config (d : Screen) : (setDisp d s).config = s.config := rfl
@[simp] theorem setDisp_rndCount (d : Screen) : (setDisp d s).rndCount = s.rndCount := rfl

@[simp] theorem pushReturn_v (w : Word) : (pushReturn w s).v = s.v := rfl
@[simp] theorem pushReturn_i (w : Word) : (pushReturn w s).i = s.i := rfl
@[simp] theorem pushReturn_pc (w : Word) : (pushReturn w s).pc = s.pc := rfl
@[simp] theorem pushReturn_sp (w : Word) : (pushReturn w s).sp = s.sp + 1#8 := rfl
@[simp] theorem pushReturn_stack (w : Word) : (pushReturn w s).stack = s.stack.setIfInBounds s.sp.toNat w := rfl
@[simp] theorem pushReturn_dt (w : Word) : (pushReturn w s).dt = s.dt := rfl
@[simp] theorem pushReturn_st (w : Word) : (pushReturn w s).st = s.st := rfl
@[simp] theorem pushReturn_disp (w : Word) : (pushReturn w s).disp = s.disp := rfl
@[simp] theorem pushReturn_mem (w : Word) : (pushReturn w s).mem = s.mem := rfl
@[simp] theorem pushReturn_run (w : Word) : (pushReturn w s).run = s.run := rfl
@[simp] theorem pushReturn_fault (w : Word) : (pushReturn w s).fault = s.fault := rfl
@[simp] theorem pushReturn_config (w : Word) : (pushReturn w s).config = s.config := rfl
@[simp] theorem pushReturn_rndCount (w : Word) : (pushReturn w s).rndCount = s.rndCount := rfl

@[simp] theorem popReturn_v (w : Word) : (popReturn w s).v = s.v := rfl
@[simp] theorem popReturn_i (w : Word) : (popReturn w s).i = s.i := rfl
@[simp] theorem popReturn_pc (w : Word) : (popReturn w s).pc = w := rfl
@[simp] theorem popReturn_sp (w : Word) : (popReturn w s).sp = s.sp - 1#8 := rfl
@[simp] theorem popReturn_stack (w : Word) : (popReturn w s).stack = s.stack := rfl
@[simp] theorem popReturn_dt (w : Word) : (popReturn w s).dt = s.dt := rfl
@[simp] theorem popReturn_st (w : Word) : (popReturn w s).st = s.st := rfl
@[simp] theorem popReturn_disp (w : Word) : (popReturn w s).disp = s.disp := rfl
@[simp] theorem popReturn_mem (w : Word) : (popReturn w s).mem = s.mem := rfl
@[simp] theorem popReturn_run (w : Word) : (popReturn w s).run = s.run := rfl
@[simp] theorem popReturn_fault (w : Word) : (popReturn w s).fault = s.fault := rfl
@[simp] theorem popReturn_config (w : Word) : (popReturn w s).config = s.config := rfl
@[simp] theorem popReturn_rndCount (w : Word) : (popReturn w s).rndCount = s.rndCount := rfl

@[simp] theorem takeDraw_v : (takeDraw s).v = s.v := rfl
@[simp] theorem takeDraw_i : (takeDraw s).i = s.i := rfl
@[simp] theorem takeDraw_pc : (takeDraw s).pc = s.pc := rfl
@[simp] theorem takeDraw_sp : (takeDraw s).sp = s.sp := rfl
@[simp] theorem takeDraw_stack : (takeDraw s).stack = s.stack := rfl
@[simp] theorem takeDraw_dt : (takeDraw s).dt = s.dt := rfl
@[simp] theorem takeDraw_st : (takeDraw s).st = s.st := rfl
@[simp] theorem takeDraw_disp : (takeDraw s).disp = s.disp := rfl
@[simp] theorem takeDraw_mem : (takeDraw s).mem = s.mem := rfl
@[simp] theorem takeDraw_run : (takeDraw s).run = s.run := rfl
@[simp] theorem takeDraw_fault : (takeDraw s).fault = s.fault := rfl
@[simp] theorem takeDraw_config : (takeDraw s).config = s.config := rfl
@[simp] theorem takeDraw_rndCount : (takeDraw s).rndCount = s.rndCount + 1 := rfl

@[simp] theorem raiseFatal_v (r : FatalReason) : (raiseFatal r s).v = s.v := rfl
@[simp] theorem raiseFatal_i (r : FatalReason) : (raiseFatal r s).i = s.i := rfl
@[simp] theorem raiseFatal_pc (r : FatalReason) : (raiseFatal r s).pc = s.pc := rfl
@[simp] theorem raiseFatal_sp (r : FatalReason) : (raiseFatal r s).sp = s.sp := rfl
@[simp] theorem raiseFatal_stack (r : FatalReason) : (raiseFatal r s).stack = s.stack := rfl
@[simp] theorem raiseFatal_dt (r : FatalReason) : (raiseFatal r s).dt = s.dt := rfl
@[simp] theorem raiseFatal_st (r : FatalReason) : (raiseFatal r s).st = s.st := rfl
@[simp] theorem raiseFatal_disp (r : FatalReason) : (raiseFatal r s).disp = s.disp := rfl
@[simp] theorem raiseFatal_mem (r : FatalReason) : (raiseFatal r s).mem = s.mem := rfl
@[simp] theorem raiseFatal_run (r : FatalReason) : (raiseFatal r s).run = .panicked := rfl
@[simp] theorem raiseFatal_fault (r : FatalReason) : (raiseFatal r s).fault = some r := rfl
@[simp] theorem raiseFatal_config (r : FatalReason) : (raiseFatal r s).config = s.config := rfl
@[simp] theorem raiseFatal_rndCount (r : FatalReason) : (raiseFatal r s).rndCount = s.rndCount := rfl

/-- A register reads what was just written to it. -/
@[simp] theorem getV_setV_self (x : Reg) (b : Byte) : getV x (setV x b s) = b := by
  simp [getV, setV]

/-- Writing one register leaves every other. -/
theorem getV_setV_of_ne {x r : Reg} (h : r ≠ x) (b : Byte) : getV r (setV x b s) = getV r s := by
  have hne : x.toNat ≠ r.toNat := fun e => h (BitVec.eq_of_toNat_eq e.symm)
  simp [getV, setV, Vector.getElem_set_ne, hne]

/-- A flag write reads back as 0 or 1. -/
@[simp] theorem getV_flagReg_setFlag (f : Bool) :
    getV flagReg (setFlag f s) = if f then 0x01#8 else 0x00#8 := getV_setV_self s flagReg _

/-- A flag write leaves every register but `VF`. -/
theorem getV_setFlag_of_ne {r : Reg} (h : r ≠ flagReg) (f : Bool) : getV r (setFlag f s) = getV r s :=
  getV_setV_of_ne s h _

@[simp] theorem getV_setI (x : Reg) (w : Word) : getV x (setI w s) = getV x s := rfl
@[simp] theorem getV_setPc (x : Reg) (w : Word) : getV x (setPc w s) = getV x s := rfl
@[simp] theorem getV_advancePc (x : Reg) : getV x (advancePc s) = getV x s := rfl
@[simp] theorem getV_rewindPc (x : Reg) : getV x (rewindPc s) = getV x s := rfl
@[simp] theorem getV_setRun (x : Reg) (r : RunState) : getV x (setRun r s) = getV x s := rfl
@[simp] theorem getV_setDisp (x : Reg) (d : Screen) : getV x (setDisp d s) = getV x s := rfl
@[simp] theorem getV_pushReturn (x : Reg) (w : Word) : getV x (pushReturn w s) = getV x s := rfl
@[simp] theorem getV_popReturn (x : Reg) (w : Word) : getV x (popReturn w s) = getV x s := rfl
@[simp] theorem getV_takeDraw (x : Reg) : getV x (takeDraw s) = getV x s := rfl
@[simp] theorem getV_raiseFatal (x : Reg) (r : FatalReason) : getV x (raiseFatal r s) = getV x s := rfl

@[simp] theorem readByte_setV (c : Addr) (x : Reg) (b : Byte) : readByte c (setV x b s) = readByte c s := rfl
@[simp] theorem readByte_setFlag (c : Addr) (f : Bool) : readByte c (setFlag f s) = readByte c s := rfl
@[simp] theorem readByte_setI (c : Addr) (w : Word) : readByte c (setI w s) = readByte c s := rfl
@[simp] theorem readByte_setPc (c : Addr) (w : Word) : readByte c (setPc w s) = readByte c s := rfl
@[simp] theorem readByte_advancePc (c : Addr) : readByte c (advancePc s) = readByte c s := rfl
@[simp] theorem readByte_rewindPc (c : Addr) : readByte c (rewindPc s) = readByte c s := rfl
@[simp] theorem readByte_setRun (c : Addr) (r : RunState) : readByte c (setRun r s) = readByte c s := rfl
@[simp] theorem readByte_setDisp (c : Addr) (d : Screen) : readByte c (setDisp d s) = readByte c s := rfl
@[simp] theorem readByte_pushReturn (c : Addr) (w : Word) : readByte c (pushReturn w s) = readByte c s := rfl
@[simp] theorem readByte_popReturn (c : Addr) (w : Word) : readByte c (popReturn w s) = readByte c s := rfl
@[simp] theorem readByte_takeDraw (c : Addr) : readByte c (takeDraw s) = readByte c s := rfl
@[simp] theorem readByte_raiseFatal (c : Addr) (r : FatalReason) : readByte c (raiseFatal r s) = readByte c s := rfl

@[simp] theorem pixel_setV (k : Nat) (x : Reg) (b : Byte) : pixel k (setV x b s) = pixel k s := rfl
@[simp] theorem pixel_setFlag (k : Nat) (f : Bool) : pixel k (setFlag f s) = pixel k s := rfl
@[simp] theorem pixel_setI (k : Nat) (w : Word) : pixel k (setI w s) = pixel k s := rfl
@[simp] theorem pixel_setPc (k : Nat) (w : Word) : pixel k (setPc w s) = pixel k s := rfl
@[simp] theorem pixel_advancePc (k : Nat) : pixel k (advancePc s) = pixel k s := rfl
@[simp] theorem pixel_rewindPc (k : Nat) : pixel k (rewindPc s) = pixel k s := rfl
@[simp] theorem pixel_setRun (k : Nat) (r : RunState) : pixel k (setRun r s) = pixel k s := rfl
@[simp] theorem pixel_pushReturn (k : Nat) (w : Word) : pixel k (pushReturn w s) = pixel k s := rfl
@[simp] theorem pixel_popReturn (k : Nat) (w : Word) : pixel k (popReturn w s) = pixel k s := rfl
@[simp] theorem pixel_takeDraw (k : Nat) : pixel k (takeDraw s) = pixel k s := rfl
@[simp] theorem pixel_raiseFatal (k : Nat) (r : FatalReason) : pixel k (raiseFatal r s) = pixel k s := rfl

@[simp] theorem stackSlot_setV (j : Nat) (x : Reg) (b : Byte) : stackSlot j (setV x b s) = stackSlot j s := rfl
@[simp] theorem stackSlot_setFlag (j : Nat) (f : Bool) : stackSlot j (setFlag f s) = stackSlot j s := rfl
@[simp] theorem stackSlot_setI (j : Nat) (w : Word) : stackSlot j (setI w s) = stackSlot j s := rfl
@[simp] theorem stackSlot_setPc (j : Nat) (w : Word) : stackSlot j (setPc w s) = stackSlot j s := rfl
@[simp] theorem stackSlot_advancePc (j : Nat) : stackSlot j (advancePc s) = stackSlot j s := rfl
@[simp] theorem stackSlot_rewindPc (j : Nat) : stackSlot j (rewindPc s) = stackSlot j s := rfl
@[simp] theorem stackSlot_setRun (j : Nat) (r : RunState) : stackSlot j (setRun r s) = stackSlot j s := rfl
@[simp] theorem stackSlot_setDisp (j : Nat) (d : Screen) : stackSlot j (setDisp d s) = stackSlot j s := rfl
@[simp] theorem stackSlot_popReturn (j : Nat) (w : Word) : stackSlot j (popReturn w s) = stackSlot j s := rfl
@[simp] theorem stackSlot_takeDraw (j : Nat) : stackSlot j (takeDraw s) = stackSlot j s := rfl
@[simp] theorem stackSlot_raiseFatal (j : Nat) (r : FatalReason) : stackSlot j (raiseFatal r s) = stackSlot j s := rfl

/-- The slot a push writes, where `SP` names a slot. -/
theorem stackSlot_pushReturn_self (w : Word) (h : s.sp.toNat < 16) :
    stackSlot s.sp.toNat (pushReturn w s) = some w := by
  simp [stackSlot, h]

/-- A push leaves every other slot. -/
theorem stackSlot_pushReturn_of_ne {j : Nat} (h : j ≠ s.sp.toNat) (w : Word) :
    stackSlot j (pushReturn w s) = stackSlot j s := by
  simp [stackSlot, Vector.getElem?_setIfInBounds_ne, h.symm]

/-- The slots that exist are 0 to 15. -/
theorem stackSlot_of_lt {j : Nat} (h : j < 16) : stackSlot j s = some (s.stack[j]) := by
  simp [stackSlot, h]

/-- There is no slot 16 or above. -/
theorem stackSlot_of_ge {j : Nat} (h : 16 ≤ j) : stackSlot j s = none := by
  simp [stackSlot, h]

end Sys2Proof.Machine
end

