-- ==== Sys2Proof/Laws/Display.lean ====
section
/-! SUPPORT. The blitter: one cell at a time, and a blit as the list of the cells it toggles. -/

namespace Sys2Proof.Machine

/-- A bit has the cell of its number, when that lies in the buffer. -/
theorem cellOf_eq_some_iff {mode : SpriteAddressing} {px py : Byte} {r c k : Nat} :
    cellOf mode px py r c = some k ↔ cellIndex mode px py r c = k ∧ k < screenCells := by
  unfold cellOf
  split
  · rw [Option.some.injEq]
    exact ⟨fun h => ⟨h, by omega⟩, fun h => h.1⟩
  · simp only [reduceCtorEq, false_iff]
    rintro ⟨rfl, h⟩
    contradiction

/-- A cell lies in the buffer. -/
theorem cellOf_lt {mode : SpriteAddressing} {px py : Byte} {r c k : Nat} (h : cellOf mode px py r c = some k) :
    k < screenCells := (cellOf_eq_some_iff.mp h).2

/-- The toroidal cell lies in the buffer. -/
theorem toroidalCell_lt (px py : Byte) (r c : Nat) : toroidalCell px py r c < screenCells := by
  simp only [toroidalCell, screenCells, screenColumns, screenRows]; omega

/-- Under toroidal addressing every bit has a cell. -/
@[simp] theorem cellOf_toroidal (px py : Byte) (r c : Nat) :
    cellOf .toroidal px py r c = some (toroidalCell px py r c) :=
  cellOf_eq_some_iff.mpr ⟨rfl, toroidalCell_lt px py r c⟩

/-- Toggling one cell, seen at every cell. -/
theorem getLsbD_toggleCell {k j : Nat} (hk : k < screenCells) (b : Blit) :
    (toggleCell k b).disp.getLsbD j = (b.disp.getLsbD j ^^ decide (j = k)) := by
  have : k < 2048 := hk
  simp [toggleCell, BitVec.getLsbD_xor, BitVec.getLsbD_twoPow, this, eq_comm]

/-- Toggling one cell collides when it held 1. -/
@[simp] theorem collide_toggleCell (k : Nat) (b : Blit) :
    (toggleCell k b).collide = (b.collide || b.disp.getLsbD k) := rfl

/-- The cells a row toggles, column 0 first. -/
def rowCells (mode : SpriteAddressing) (px py : Byte) (r : Nat) (row : Byte) : List Nat :=
  (spriteColumns.filter fun c => spriteBit row c).filterMap fun c => cellOf mode px py r c

/-- The cells the rows from row `r` on toggle. -/
def spriteCells (mode : SpriteAddressing) (px py : Byte) : Nat → List Byte → List Nat
  | _, [] => []
  | r, row :: rows => rowCells mode px py r row ++ spriteCells mode px py (r + 1) rows

/-- A row toggles its cells, one after the other. -/
theorem blitRow_eq_foldl (mode : SpriteAddressing) (px py : Byte) (r : Nat) (row : Byte) (b : Blit) :
    blitRow mode px py r row b = (rowCells mode px py r row).foldl (fun b k => toggleCell k b) b := by
  simp only [blitRow, rowCells]
  generalize spriteColumns = cs
  induction cs generalizing b with
  | nil => rfl
  | cons c cs ih =>
    rw [List.foldl_cons, ih]
    cases hb : spriteBit row c
    · simp [blitBit, hb]
    · cases hc : cellOf mode px py r c <;> simp [blitBit, hb, hc]

/-- A blit toggles the cells of its rows, one after the other. -/
theorem blitRows_eq_foldl (mode : SpriteAddressing) (px py : Byte) (r : Nat) (rows : List Byte) (b : Blit) :
    blitRows mode px py r rows b = (spriteCells mode px py r rows).foldl (fun b k => toggleCell k b) b := by
  induction rows generalizing r b with
  | nil => rfl
  | cons row rows ih => rw [blitRows, ih, blitRow_eq_foldl, spriteCells, List.foldl_append]

/-- Toggling pairwise distinct cells toggles each of them once. -/
theorem getLsbD_foldl_toggleCell {cells : List Nat} (hnd : cells.Nodup) (hlt : ∀ k ∈ cells, k < screenCells)
    (b : Blit) (j : Nat) :
    (cells.foldl (fun b k => toggleCell k b) b).disp.getLsbD j = (b.disp.getLsbD j ^^ decide (j ∈ cells)) := by
  induction cells generalizing b with
  | nil => simp
  | cons k ks ih =>
    obtain ⟨hk, hnd⟩ := List.nodup_cons.mp hnd
    rw [List.foldl_cons, ih hnd (fun m hm => hlt m (List.mem_cons_of_mem _ hm)),
      getLsbD_toggleCell (hlt k List.mem_cons_self)]
    by_cases hjk : j = k
    · subst hjk; simp [hk]
    · simp [hjk]

/-- Toggling pairwise distinct cells collides when one of them held 1 before. -/
theorem collide_foldl_toggleCell {cells : List Nat} (hnd : cells.Nodup) (hlt : ∀ k ∈ cells, k < screenCells)
    (b : Blit) :
    (cells.foldl (fun b k => toggleCell k b) b).collide = (b.collide || cells.any fun k => b.disp.getLsbD k) := by
  induction cells generalizing b with
  | nil => simp
  | cons k ks ih =>
    obtain ⟨hk, hnd⟩ := List.nodup_cons.mp hnd
    rw [List.foldl_cons, ih hnd (fun m hm => hlt m (List.mem_cons_of_mem _ hm))]
    have hsame : (ks.any fun m => (toggleCell k b).disp.getLsbD m) = ks.any fun m => b.disp.getLsbD m := by
      rw [Bool.eq_iff_iff, List.any_eq_true, List.any_eq_true]
      refine exists_congr fun m => and_congr_right fun hm => ?_
      have hmk : m ≠ k := fun e => hk (e ▸ hm)
      rw [getLsbD_toggleCell (hlt k List.mem_cons_self)]
      simp [hmk]
    rw [hsame]
    simp [Bool.or_assoc]

@[simp] theorem applyBlit_of_collide {b : Blit} (h : b.collide = true) (s : State) :
    applyBlit b s = setFlag true (setDisp b.disp s) := by simp [applyBlit, h]

@[simp] theorem applyBlit_of_not_collide {b : Blit} (h : b.collide = false) (s : State) :
    applyBlit b s = setDisp b.disp s := by simp [applyBlit, h]

/-- Whatever the collision, the framebuffer is the blitter's. -/
@[simp] theorem applyBlit_disp (b : Blit) (s : State) : (applyBlit b s).disp = b.disp := by
  unfold applyBlit; split <;> rfl

@[simp] theorem applyBlit_i (b : Blit) (s : State) : (applyBlit b s).i = s.i := by
  unfold applyBlit; split <;> rfl
@[simp] theorem applyBlit_pc (b : Blit) (s : State) : (applyBlit b s).pc = s.pc := by
  unfold applyBlit; split <;> rfl
@[simp] theorem applyBlit_sp (b : Blit) (s : State) : (applyBlit b s).sp = s.sp := by
  unfold applyBlit; split <;> rfl
@[simp] theorem applyBlit_stack (b : Blit) (s : State) : (applyBlit b s).stack = s.stack := by
  unfold applyBlit; split <;> rfl
@[simp] theorem applyBlit_dt (b : Blit) (s : State) : (applyBlit b s).dt = s.dt := by
  unfold applyBlit; split <;> rfl
@[simp] theorem applyBlit_st (b : Blit) (s : State) : (applyBlit b s).st = s.st := by
  unfold applyBlit; split <;> rfl
@[simp] theorem applyBlit_mem (b : Blit) (s : State) : (applyBlit b s).mem = s.mem := by
  unfold applyBlit; split <;> rfl
@[simp] theorem applyBlit_run (b : Blit) (s : State) : (applyBlit b s).run = s.run := by
  unfold applyBlit; split <;> rfl
@[simp] theorem applyBlit_fault (b : Blit) (s : State) : (applyBlit b s).fault = s.fault := by
  unfold applyBlit; split <;> rfl
@[simp] theorem applyBlit_config (b : Blit) (s : State) : (applyBlit b s).config = s.config := by
  unfold applyBlit; split <;> rfl
@[simp] theorem applyBlit_rndCount (b : Blit) (s : State) : (applyBlit b s).rndCount = s.rndCount := by
  unfold applyBlit; split <;> rfl

/-- A blit writes no register but `VF`. -/
theorem getV_applyBlit_of_ne {r : Reg} (h : r ≠ flagReg) (b : Blit) (s : State) :
    getV r (applyBlit b s) = getV r s := by
  unfold applyBlit; split
  · rw [getV_setFlag_of_ne _ h]; rfl
  · rfl

end Sys2Proof.Machine
end

