-- ==== Sys2Proof/Laws/Exec.lean ====
section
/-! SUPPORT. One lemma for each shared operation, saying once everything it can do, and from them the inversion of exec:
every next state an instruction can give. -/

namespace Sys2Proof.Machine

variable {s t : State}

@[simp] theorem fatal_eq (r : FatalReason) (s : State) : fatal r s = .next (raiseFatal r s) := rfl

/-- A destination that is not `VF` takes the effect. -/
theorem withDest_of_ne {x : Reg} (h : x ≠ flagReg) (s : State) (f : State → State) : withDest x s f = .next (f s) := by
  simp [withDest, h]

/-- A destination `VF` is refused. -/
theorem withDest_flagReg (s : State) (f : State → State) :
    withDest flagReg s f = .next (raiseFatal .reservedRegister s) := by
  simp [withDest]

/-- What an instruction with an explicit destination can do. -/
theorem withDest_next {x : Reg} {f : State → State} (h : withDest x s f = .next t) :
    (x = flagReg ∧ t = raiseFatal .reservedRegister s) ∨ (x ≠ flagReg ∧ t = f s) := by
  by_cases hx : x = flagReg
  · subst hx; rw [withDest_flagReg] at h; cases h; exact .inl ⟨rfl, rfl⟩
  · rw [withDest_of_ne hx] at h; cases h; exact .inr ⟨hx, rfl⟩

/-- What an instruction with a checked target can do. -/
theorem withTarget_next {w : Word} {f : State → Result} (h : withTarget w s f = .next t) :
    (validTarget w = false ∧ t = raiseFatal .illegalTarget s) ∨ (validTarget w = true ∧ f s = .next t) := by
  cases hv : validTarget w
  · simp only [withTarget, hv, Bool.false_eq_true, if_false, fatal_eq] at h
    cases h; exact .inl ⟨rfl, rfl⟩
  · simp only [withTarget, hv, if_true] at h
    exact .inr ⟨rfl, h⟩

/-- What a return can do. -/
theorem returnTo_next {j : Nat} (h : returnTo j s = .next t) : ∃ w, stackSlot j s = some w ∧ t = popReturn w s := by
  unfold returnTo at h
  split at h
  · next w hw => cases h; exact ⟨w, hw, rfl⟩
  · cases h

/-- An instruction with an explicit destination is that destination's check and an effect that touches neither the run
state nor the fault reason. -/
theorem exec_of_explicitDest {i : Instr} {x : Reg} (h : explicitDest i = some x) (s : State) :
    ∃ f : State → State, exec i s = withDest x s f ∧ ∀ u, (f u).run = u.run ∧ (f u).fault = u.fault := by
  cases i <;> simp only [explicitDest, Option.some.injEq, reduceCtorEq] at h <;> subst h <;>
    simp only [exec, execLdVxKk, execLdVxVy, execAddVxKk, execAddVxVy, execOrVxVy, execAndVxVy, execXorVxVy,
      execSubVxVy, execSubnVxVy, execShrVx, execShlVx, execRndVxKk, rndWith] <;>
    exact ⟨_, rfl, fun _ => ⟨rfl, rfl⟩⟩

/-- Every next state an instruction can give, with the condition under which it gives it. -/
inductive Effect (s : State) : Instr → State → Prop where
  /-- A fatal condition of the instruction's own is taken. -/
  | fatal (i : Instr) (r : FatalReason) (hr : mayRaise i r = true) : Effect s i (raiseFatal r s)
  | terminator : Effect s .terminator (setRun .halted (rewindPc s))
  | cls : Effect s .cls (setDisp blankScreen s)
  | ret (j : Nat) (w : Word) (hslot : stackSlot j s = some w) (hsp : s.sp ≠ 0#8) : Effect s .ret (popReturn w s)
  | sys (nnn : Addr) : Effect s (.sys nnn) s
  | jp (nnn : Addr) (hv : validTarget (zextAddr nnn) = true) : Effect s (.jp nnn) (setPc (zextAddr nnn) s)
  | jpV0 (nnn : Addr) (hv : validTarget (v0Target nnn s) = true) : Effect s (.jpV0 nnn) (setPc (v0Target nnn s) s)
  | call (nnn : Addr) (hv : validTarget (zextAddr nnn) = true) (hsp : s.sp.toNat < 16) :
      Effect s (.call nnn) (setPc (zextAddr nnn) (pushReturn s.pc s))
  | seVxKk (x : Reg) (kk : Byte) : Effect s (.seVxKk x kk) (if getV x s == kk then advancePc s else s)
  | sneVxKk (x : Reg) (kk : Byte) : Effect s (.sneVxKk x kk) (if getV x s != kk then advancePc s else s)
  | seVxVy (x y : Reg) : Effect s (.seVxVy x y) (if getV x s == getV y s then advancePc s else s)
  | sneVxVy (x y : Reg) : Effect s (.sneVxVy x y) (if getV x s != getV y s then advancePc s else s)
  /-- The destination alone is written. -/
  | dest (i : Instr) (x : Reg) (b : Byte) (hd : explicitDest i = some x) (hx : x ≠ flagReg) : Effect s i (setV x b s)
  /-- The flag, then the destination. -/
  | flagDest (i : Instr) (x : Reg) (f : Bool) (b : Byte) (hd : explicitDest i = some x) (hx : x ≠ flagReg)
      (hw : writesFlag i = true) : Effect s i (setV x b (setFlag f s))
  | ldI (nnn : Addr) : Effect s (.ldI nnn) (setI (zextAddr nnn) s)
  | rnd (x : Reg) (kk b : Byte) (hx : x ≠ flagReg) : Effect s (.rndVxKk x kk) (setV x b (takeDraw s))
  | drw (x y : Reg) (n : Nibble) (b : Blit) : Effect s (.drw x y n) (applyBlit b s)

/-- The inversion of exec: an instruction that answers a next state had one of these effects. -/
theorem exec_effect {i : Instr} (h : exec i s = .next t) : Effect s i t := by
  cases i with
  | terminator => cases h; exact .terminator
  | cls => cases h; exact .cls
  | ret =>
    simp only [exec, execRet] at h
    split at h
    · cases h; exact .fatal _ _ rfl
    · next hsp =>
      split at h
      · split at h
        · cases h; exact .fatal _ _ rfl
        · obtain ⟨w, hw, rfl⟩ := returnTo_next h; exact .ret _ w hw hsp
      · obtain ⟨w, hw, rfl⟩ := returnTo_next h; exact .ret _ w hw hsp
  | sys nnn => cases h; exact .sys nnn
  | jp nnn =>
    simp only [exec, execJp] at h
    obtain ⟨-, rfl⟩ | ⟨hv, h⟩ := withTarget_next h
    · exact .fatal _ _ rfl
    · cases h; exact .jp nnn hv
  | jpV0 nnn =>
    simp only [exec, execJpV0] at h
    obtain ⟨-, rfl⟩ | ⟨hv, h⟩ := withTarget_next h
    · exact .fatal _ _ rfl
    · cases h; exact .jpV0 nnn hv
  | call nnn =>
    simp only [exec, execCall] at h
    obtain ⟨-, rfl⟩ | ⟨hv, h⟩ := withTarget_next h
    · exact .fatal _ _ rfl
    · split at h
      · cases h; exact .fatal _ _ rfl
      · next hsp => cases h; exact .call nnn hv (by omega)
  | seVxKk x kk => cases h; exact .seVxKk x kk
  | sneVxKk x kk => cases h; exact .sneVxKk x kk
  | seVxVy x y => cases h; exact .seVxVy x y
  | sneVxVy x y => cases h; exact .sneVxVy x y
  | ldI nnn => cases h; exact .ldI nnn
  | drw x y n =>
    simp only [exec, execDrw] at h
    split at h
    · cases h; exact .fatal _ _ rfl
    · split at h
      · cases h; exact .fatal _ _ rfl
      · cases h; exact .drw x y n _
  | unrecognized raw => cases h; exact .fatal _ _ rfl
  | rndVxKk x kk =>
    simp only [exec, execRndVxKk, rndWith] at h
    obtain ⟨-, rfl⟩ | ⟨hx, rfl⟩ := withDest_next h
    · exact .fatal _ _ rfl
    · exact .rnd x kk _ hx
  | ldVxKk x _ | ldVxVy x _ | addVxKk x _ | orVxVy x _ | andVxVy x _ | xorVxVy x _ =>
    simp only [exec, execLdVxKk, execLdVxVy, execAddVxKk, execOrVxVy, execAndVxVy, execXorVxVy] at h
    obtain ⟨-, rfl⟩ | ⟨hx, rfl⟩ := withDest_next h
    · exact .fatal _ _ rfl
    · exact .dest _ x _ rfl hx
  | addVxVy x _ | subVxVy x _ | subnVxVy x _ | shrVx x _ | shlVx x _ =>
    simp only [exec, execAddVxVy, execSubVxVy, execSubnVxVy, execShrVx, execShlVx, subtractInto, subtractFrom] at h
    obtain ⟨-, rfl⟩ | ⟨hx, rfl⟩ := withDest_next h
    · exact .fatal _ _ rfl
    · exact .flagDest _ x _ _ rfl hx rfl

end Sys2Proof.Machine
end

