-- ==== Sys2Proof/Laws/Memory.lean ====
section
/-! SUPPORT. Memory: a read after a write, and that every memory operation keeps the canonical form. -/

namespace Sys2Proof.Machine

@[simp] theorem Memory.lookup_nil (a : Nat) : Memory.lookup [] a = Memory.unlisted := rfl

/-- A canonical list holds no key below its bound. -/
theorem Memory.lookup_of_lt_lo {lo hi : Nat} {m : Memory} (h : Memory.canonFrom lo hi m = true) {a : Nat}
    (ha : a < lo) : Memory.lookup m a = Memory.unlisted := by
  induction m generalizing lo with
  | nil => rfl
  | cons c rest ih =>
    obtain ⟨k, b⟩ := c
    simp only [Memory.canonFrom, Bool.and_eq_true, decide_eq_true_eq] at h
    obtain ⟨⟨⟨hlo, -⟩, -⟩, hrest⟩ := h
    have hne : ¬ k = a := by omega
    simp only [Memory.lookup, hne, if_false]
    exact ih hrest (by omega)

/-- The bound of a canonical list may be lowered. -/
theorem Memory.canonFrom_mono {lo lo' hi : Nat} {m : Memory} (h : Memory.canonFrom lo hi m = true) (hle : lo' ≤ lo) :
    Memory.canonFrom lo' hi m = true := by
  cases m with
  | nil => rfl
  | cons c rest =>
    obtain ⟨k, b⟩ := c
    simp only [Memory.canonFrom, Bool.and_eq_true, decide_eq_true_eq] at h ⊢
    obtain ⟨⟨⟨hlo, hhi⟩, hb⟩, hrest⟩ := h
    exact ⟨⟨⟨by omega, hhi⟩, hb⟩, hrest⟩

/-- The upper bound of a canonical list may be raised. -/
theorem Memory.canonFrom_mono_hi {lo hi hi' : Nat} {m : Memory} (h : Memory.canonFrom lo hi m = true)
    (hle : hi ≤ hi') : Memory.canonFrom lo hi' m = true := by
  induction m generalizing lo with
  | nil => rfl
  | cons c rest ih =>
    obtain ⟨k, b⟩ := c
    simp only [Memory.canonFrom, Bool.and_eq_true, decide_eq_true_eq] at h ⊢
    obtain ⟨⟨⟨hlo, hhi⟩, hb⟩, hrest⟩ := h
    exact ⟨⟨⟨hlo, by omega⟩, hb⟩, ih hrest⟩

/-- A write inside the bounds keeps the canonical form. -/
theorem Memory.canonFrom_insert {lo hi : Nat} {m : Memory} (h : Memory.canonFrom lo hi m = true) {a : Nat}
    (hlo : lo ≤ a) (hhi : a < hi) (b : Byte) : Memory.canonFrom lo hi (Memory.insert m a b) = true := by
  induction m generalizing lo with
  | nil =>
    by_cases hb : b = Memory.unlisted
    · simp [Memory.insert, hb, Memory.canonFrom]
    · simp [Memory.insert, hb, Memory.canonFrom, hlo, hhi]
  | cons c rest ih =>
    obtain ⟨k, d⟩ := c
    simp only [Memory.canonFrom, Bool.and_eq_true, decide_eq_true_eq] at h
    obtain ⟨⟨⟨hk, hkhi⟩, hd⟩, hrest⟩ := h
    by_cases hlt : a < k
    · by_cases hb : b = Memory.unlisted
      · simp [Memory.insert, hlt, hb, Memory.canonFrom, hk, hkhi, hd, hrest]
      · simp only [Memory.insert, hlt, hb, if_true, if_false, Memory.canonFrom, Bool.and_eq_true, decide_eq_true_eq]
        exact ⟨⟨⟨hlo, hhi⟩, hb⟩, ⟨⟨⟨by omega, hkhi⟩, hd⟩, hrest⟩⟩
    · by_cases heq : a = k
      · subst heq
        by_cases hb : b = Memory.unlisted
        · simpa [Memory.insert, hb] using Memory.canonFrom_mono hrest (by omega)
        · simp only [Memory.insert, Nat.lt_irrefl, hb, if_true, if_false, Memory.canonFrom, Bool.and_eq_true,
            decide_eq_true_eq]
          exact ⟨⟨⟨hk, hkhi⟩, hb⟩, hrest⟩
      · simp only [Memory.insert, hlt, heq, if_false, Memory.canonFrom, Bool.and_eq_true, decide_eq_true_eq]
        exact ⟨⟨⟨hk, hkhi⟩, hd⟩, ih hrest (by omega)⟩

/-- A byte reads back after a write to the same key, whatever the byte, in a canonical list. -/
theorem Memory.lookup_insert_self {lo hi : Nat} {m : Memory} (h : Memory.canonFrom lo hi m = true) (a : Nat)
    (b : Byte) : Memory.lookup (Memory.insert m a b) a = b := by
  induction m generalizing lo with
  | nil => by_cases hb : b = Memory.unlisted <;> simp [Memory.insert, hb, Memory.lookup]
  | cons c rest ih =>
    obtain ⟨k, d⟩ := c
    simp only [Memory.canonFrom, Bool.and_eq_true, decide_eq_true_eq] at h
    obtain ⟨⟨⟨hk, hkhi⟩, hd⟩, hrest⟩ := h
    by_cases hlt : a < k
    · by_cases hb : b = Memory.unlisted
      · have hne : ¬ k = a := by omega
        simp only [Memory.insert, hlt, hb, if_true, Memory.lookup, hne, if_false]
        exact Memory.lookup_of_lt_lo hrest (by omega)
      · simp [Memory.insert, hlt, hb, Memory.lookup]
    · by_cases heq : a = k
      · subst heq
        by_cases hb : b = Memory.unlisted
        · simpa [Memory.insert, hb] using Memory.lookup_of_lt_lo hrest (Nat.lt_succ_self a)
        · simp [Memory.insert, hb, Memory.lookup]
      · have hne : ¬ k = a := by omega
        simp only [Memory.insert, hlt, heq, if_false, Memory.lookup, hne]
        exact ih hrest

/-- A write leaves every other key. -/
theorem Memory.lookup_insert_of_ne (m : Memory) {a a' : Nat} (hne : a' ≠ a) (b : Byte) :
    Memory.lookup (Memory.insert m a b) a' = Memory.lookup m a' := by
  have hne' : ¬ a = a' := fun e => hne e.symm
  induction m with
  | nil => by_cases hb : b = Memory.unlisted <;> simp [Memory.insert, hb, Memory.lookup, hne']
  | cons c rest ih =>
    obtain ⟨k, d⟩ := c
    by_cases hlt : a < k
    · by_cases hb : b = Memory.unlisted <;> simp [Memory.insert, hlt, hb, Memory.lookup, hne']
    · by_cases heq : a = k
      · subst heq
        by_cases hb : b = Memory.unlisted <;> simp [Memory.insert, hb, Memory.lookup, hne']
      · simp only [Memory.insert, hlt, heq, if_false, Memory.lookup, ih]

/-- Writing bytes inside the bounds keeps the canonical form. -/
theorem Memory.canonFrom_writeBytes {lo hi : Nat} {m : Memory} (h : Memory.canonFrom lo hi m = true) {a : Nat}
    {bs : List Byte} (hlo : lo ≤ a) (hhi : a + bs.length ≤ hi) :
    Memory.canonFrom lo hi (Memory.writeBytes m a bs) = true := by
  induction bs generalizing m a with
  | nil => exact h
  | cons b rest ih =>
    simp only [List.length_cons] at hhi
    exact ih (Memory.canonFrom_insert h hlo (by omega) b) (by omega) (by omega)

/-- Bytes written below a key do not touch it. -/
theorem Memory.lookup_writeBytes_of_lt (m : Memory) (a : Nat) (bs : List Byte) {k : Nat} (hk : k < a) :
    Memory.lookup (Memory.writeBytes m a bs) k = Memory.lookup m k := by
  induction bs generalizing m a with
  | nil => rfl
  | cons b rest ih =>
    rw [Memory.writeBytes, ih _ _ (by omega), Memory.lookup_insert_of_ne _ (by omega)]

/-- What a key holds after bytes are written from `a` on. -/
theorem Memory.lookup_writeBytes {lo hi : Nat} {m : Memory} (h : Memory.canonFrom lo hi m = true) {a : Nat}
    {bs : List Byte} (hlo : lo ≤ a) (hhi : a + bs.length ≤ hi) (k : Nat) :
    Memory.lookup (Memory.writeBytes m a bs) k =
      if a ≤ k ∧ k < a + bs.length then bs[k - a]?.getD Memory.unlisted else Memory.lookup m k := by
  induction bs generalizing m a with
  | nil =>
    simp [Memory.writeBytes]
  | cons b rest ih =>
    simp only [List.length_cons] at hhi
    have hins := Memory.canonFrom_insert h hlo (show a < hi by omega) b
    rw [Memory.writeBytes, ih hins (by omega) (by omega)]
    by_cases hka : k = a
    · subst hka
      have h1 : ¬ (k + 1 ≤ k ∧ k < k + 1 + rest.length) := by omega
      have h2 : k ≤ k ∧ k < k + (b :: rest).length := by simp
      rw [if_neg h1, if_pos h2, Memory.lookup_insert_self h]
      simp
    · rw [Memory.lookup_insert_of_ne _ hka]
      by_cases hin : a + 1 ≤ k ∧ k < a + 1 + rest.length
      · have h2 : a ≤ k ∧ k < a + (b :: rest).length := by simp only [List.length_cons]; omega
        rw [if_pos hin, if_pos h2, show k - a = (k - (a + 1)) + 1 by omega, List.getElem?_cons_succ]
      · have h2 : ¬ (a ≤ k ∧ k < a + (b :: rest).length) := by simp only [List.length_cons]; omega
        rw [if_neg hin, if_neg h2]

/-- Two canonical lists of neighbouring ranges join to one. -/
theorem Memory.canonFrom_append {lo mid hi : Nat} {m n : Memory} (hm : Memory.canonFrom lo mid m = true)
    (hn : Memory.canonFrom mid hi n = true) (hlo : lo ≤ mid) (hle : mid ≤ hi) :
    Memory.canonFrom lo hi (m ++ n) = true := by
  induction m generalizing lo with
  | nil => exact Memory.canonFrom_mono hn hlo
  | cons c rest ih =>
    obtain ⟨k, b⟩ := c
    simp only [Memory.canonFrom, Bool.and_eq_true, decide_eq_true_eq] at hm
    obtain ⟨⟨⟨hk, hkm⟩, hb⟩, hrest⟩ := hm
    simp only [List.cons_append, Memory.canonFrom, Bool.and_eq_true, decide_eq_true_eq]
    exact ⟨⟨⟨hk, by omega⟩, hb⟩, ih hrest (by omega)⟩

/-- A key of two joined lists. -/
theorem Memory.lookup_append {lo mid hi : Nat} {m n : Memory} (hm : Memory.canonFrom lo mid m = true)
    (hn : Memory.canonFrom mid hi n = true) (k : Nat) :
    Memory.lookup (m ++ n) k = if k < mid then Memory.lookup m k else Memory.lookup n k := by
  induction m generalizing lo with
  | nil =>
    by_cases hk : k < mid
    · simp [hk, Memory.lookup_of_lt_lo hn hk]
    · simp [hk]
  | cons c rest ih =>
    obtain ⟨j, b⟩ := c
    simp only [Memory.canonFrom, Bool.and_eq_true, decide_eq_true_eq] at hm
    obtain ⟨⟨⟨-, hjm⟩, -⟩, hrest⟩ := hm
    by_cases hjk : j = k
    · subst hjk; simp [Memory.lookup, hjm]
    · simp only [List.cons_append, Memory.lookup, hjk, if_false]
      exact ih hrest

/-- The zero fill keeps the canonical form. -/
theorem Memory.canonFrom_zeroProgram {lo hi : Nat} {m : Memory} (h : Memory.canonFrom lo hi m = true) :
    Memory.canonFrom lo hi (Memory.zeroProgram m) = true := by
  induction m generalizing lo with
  | nil => rfl
  | cons c rest ih =>
    obtain ⟨k, b⟩ := c
    simp only [Memory.canonFrom, Bool.and_eq_true, decide_eq_true_eq] at h
    obtain ⟨⟨⟨hk, hkhi⟩, hb⟩, hrest⟩ := h
    by_cases hlt : k < 0x200
    · simp only [Memory.zeroProgram, List.filter_cons, hlt, decide_true, if_true, Memory.canonFrom,
        Bool.and_eq_true, decide_eq_true_eq]
      exact ⟨⟨⟨hk, hkhi⟩, hb⟩, ih hrest⟩
    · simp only [Memory.zeroProgram, List.filter_cons, hlt, decide_false]
      exact Memory.canonFrom_mono (ih hrest) (by omega)

/-- What a key holds after the zero fill. -/
theorem Memory.lookup_zeroProgram (m : Memory) (k : Nat) :
    Memory.lookup (Memory.zeroProgram m) k = if k < 0x200 then Memory.lookup m k else Memory.unlisted := by
  induction m with
  | nil => simp [Memory.zeroProgram]
  | cons c rest ih =>
    obtain ⟨j, b⟩ := c
    by_cases hj : j < 0x200
    · simp only [Memory.zeroProgram, List.filter_cons, hj, decide_true, if_true, Memory.lookup] at ih ⊢
      by_cases hjk : j = k
      · subst hjk; simp [hj]
      · simp only [hjk, if_false]; exact ih
    · simp only [Memory.zeroProgram, List.filter_cons, hj, decide_false] at ih ⊢
      by_cases hjk : j = k
      · subst hjk; simpa [hj] using ih
      · simpa [Memory.lookup, hjk] using ih

/-- The image load keeps the canonical form of memory. -/
theorem Memory.wf_loadImage {m : Memory} (h : Memory.wf m = true) (img : List Byte) :
    Memory.wf (Memory.loadImage m img) = true :=
  Memory.canonFrom_writeBytes (Memory.canonFrom_zeroProgram h) (by omega)
    (by have := List.length_take_le 0xE00 img; omega)

/-- One write keeps the canonical form of memory. -/
theorem Memory.wf_write {m : Memory} (h : Memory.wf m = true) (a : Addr) (b : Byte) :
    Memory.wf (Memory.write m a b) = true :=
  Memory.canonFrom_insert h (Nat.zero_le _) a.isLt b

/-- A write reads back. -/
theorem Memory.read_write_self {m : Memory} (h : Memory.wf m = true) (a : Addr) (b : Byte) :
    Memory.read (Memory.write m a b) a = b := Memory.lookup_insert_self h _ _

/-- A write leaves every other address. -/
theorem Memory.read_write_of_ne (m : Memory) {a a' : Addr} (h : a' ≠ a) (b : Byte) :
    Memory.read (Memory.write m a b) a' = Memory.read m a' :=
  Memory.lookup_insert_of_ne m (fun e => h (BitVec.eq_of_toNat_eq e)) b

/-- The construction record's two contents, joined, are in canonical form. -/
theorem canonFrom_initial {c : Config} (h : c.wf = true) :
    Memory.canonFrom 0 0x1000 (c.reservedInit ++ c.programInit) = true := by
  simp only [Config.wf, Bool.and_eq_true] at h
  exact Memory.canonFrom_append h.1.2 h.2 (by omega) (by omega)

/-- The construction memory of a well-formed record is in canonical form. -/
theorem wf_constructMemory {c : Config} (h : c.wf = true) : Memory.wf (constructMemory c) = true := by
  have hb : c.fontBase.toNat + 80 ≤ 0x200 := by
    simp only [Config.wf, Bool.and_eq_true, decide_eq_true_eq] at h; exact h.1.1
  exact Memory.canonFrom_writeBytes (canonFrom_initial h) (Nat.zero_le _) (by simp; omega)

/-- The reset memory is in canonical form. -/
theorem reset_mem_wf : Memory.wf State.reset.mem = true := wf_constructMemory (by decide)

end Sys2Proof.Machine
end

