-- ==== Sys2Proof/Laws/PerInstr.lean ====
section
/-! SUPPORT. Statements made per instruction. The family Opcode: the opcode nibble of an instruction's word is the one its
row of 30_encoding.md R49 gives it (for an unrecognized word, its own). -/

namespace Sys2Proof

/-- The first hexadecimal digit of the `match` column of 30_encoding.md R49. -/
def Laws.Opcode.nibble : Instr → Nibble
  | .terminator | .cls | .ret | .sys _ => 0x0#4
  | .jp _ => 0x1#4
  | .call _ => 0x2#4
  | .seVxKk _ _ => 0x3#4
  | .sneVxKk _ _ => 0x4#4
  | .seVxVy _ _ => 0x5#4
  | .ldVxKk _ _ => 0x6#4
  | .addVxKk _ _ => 0x7#4
  | .ldVxVy _ _ | .orVxVy _ _ | .andVxVy _ _ | .xorVxVy _ _ | .addVxVy _ _ => 0x8#4
  | .subVxVy _ _ | .subnVxVy _ _ | .shrVx _ _ | .shlVx _ _ => 0x8#4
  | .sneVxVy _ _ => 0x9#4
  | .ldI _ => 0xA#4
  | .jpV0 _ => 0xB#4
  | .rndVxKk _ _ => 0xC#4
  | .drw _ _ _ => 0xD#4
  | .unrecognized raw => hField raw

/-- The opcode nibble of the instruction's word. -/
def Laws.Opcode.Statement (i : Instr) : Prop := hField (encode i) = Laws.Opcode.nibble i

theorem Laws.Opcode.terminator : Laws.Opcode.Statement .terminator := by unfold Laws.Opcode.Statement; decide
theorem Laws.Opcode.cls : Laws.Opcode.Statement .cls := by unfold Laws.Opcode.Statement; decide
theorem Laws.Opcode.ret : Laws.Opcode.Statement .ret := by unfold Laws.Opcode.Statement; decide
theorem Laws.Opcode.sys (nnn : Addr) : Laws.Opcode.Statement (.sys nnn) := hField_packNnn _ nnn
theorem Laws.Opcode.jp (nnn : Addr) : Laws.Opcode.Statement (.jp nnn) := hField_packNnn _ nnn
theorem Laws.Opcode.call (nnn : Addr) : Laws.Opcode.Statement (.call nnn) := hField_packNnn _ nnn
theorem Laws.Opcode.seVxKk (x : Reg) (kk : Byte) : Laws.Opcode.Statement (.seVxKk x kk) := hField_packXkk _ x kk
theorem Laws.Opcode.sneVxKk (x : Reg) (kk : Byte) : Laws.Opcode.Statement (.sneVxKk x kk) := hField_packXkk _ x kk
theorem Laws.Opcode.seVxVy (x y : Reg) : Laws.Opcode.Statement (.seVxVy x y) := hField_packXyn _ x y _
theorem Laws.Opcode.sneVxVy (x y : Reg) : Laws.Opcode.Statement (.sneVxVy x y) := hField_packXyn _ x y _
theorem Laws.Opcode.ldVxKk (x : Reg) (kk : Byte) : Laws.Opcode.Statement (.ldVxKk x kk) := hField_packXkk _ x kk
theorem Laws.Opcode.ldVxVy (x y : Reg) : Laws.Opcode.Statement (.ldVxVy x y) := hField_packXyn _ x y _
theorem Laws.Opcode.addVxKk (x : Reg) (kk : Byte) : Laws.Opcode.Statement (.addVxKk x kk) := hField_packXkk _ x kk
theorem Laws.Opcode.addVxVy (x y : Reg) : Laws.Opcode.Statement (.addVxVy x y) := hField_packXyn _ x y _
theorem Laws.Opcode.orVxVy (x y : Reg) : Laws.Opcode.Statement (.orVxVy x y) := hField_packXyn _ x y _
theorem Laws.Opcode.andVxVy (x y : Reg) : Laws.Opcode.Statement (.andVxVy x y) := hField_packXyn _ x y _
theorem Laws.Opcode.xorVxVy (x y : Reg) : Laws.Opcode.Statement (.xorVxVy x y) := hField_packXyn _ x y _
theorem Laws.Opcode.subVxVy (x y : Reg) : Laws.Opcode.Statement (.subVxVy x y) := hField_packXyn _ x y _
theorem Laws.Opcode.subnVxVy (x y : Reg) : Laws.Opcode.Statement (.subnVxVy x y) := hField_packXyn _ x y _
theorem Laws.Opcode.shrVx (x y : Reg) : Laws.Opcode.Statement (.shrVx x y) := hField_packXyn _ x y _
theorem Laws.Opcode.shlVx (x y : Reg) : Laws.Opcode.Statement (.shlVx x y) := hField_packXyn _ x y _
theorem Laws.Opcode.ldI (nnn : Addr) : Laws.Opcode.Statement (.ldI nnn) := hField_packNnn _ nnn
theorem Laws.Opcode.jpV0 (nnn : Addr) : Laws.Opcode.Statement (.jpV0 nnn) := hField_packNnn _ nnn
theorem Laws.Opcode.rndVxKk (x : Reg) (kk : Byte) : Laws.Opcode.Statement (.rndVxKk x kk) := hField_packXkk _ x kk
theorem Laws.Opcode.drw (x y : Reg) (n : Nibble) : Laws.Opcode.Statement (.drw x y n) := hField_packXyn _ x y n
theorem Laws.Opcode.unrecognized (raw : Word) : Laws.Opcode.Statement (.unrecognized raw) := rfl

end Sys2Proof
end

