-- ==== Sys2Proof/Laws/Step.lean ====
section
/-! SUPPORT. The step: what each run state does with a step request, and what a cycle can do. -/

namespace Sys2Proof.Machine

variable {s t : State}

theorem step_of_idle (h : s.run = .idle) : step s = cycle (setRun .running s) := by simp [step, stepRequest, h]

theorem step_of_running (h : s.run = .running) : step s = cycle s := by simp [step, stepRequest, h]

theorem step_of_halted (h : s.run = .halted) : step s = .next s := by simp [step, stepRequest, h]

theorem step_of_panicked (h : s.run = .panicked) : step s = .next s := by simp [step, stepRequest, h]

theorem fetchable_iff (w : Word) : fetchable w = true ↔ 0x200 ≤ w.toNat ∧ w.toNat ≤ 0xFFE := by
  simp [fetchable, programBase, lastFetch]

/-- What a cycle can do: the fetch fails with `pc` unchanged, or the fetched instruction executes after `pc` advanced. -/
theorem cycle_next (h : cycle s = .next t) :
    (fetchable s.pc = false ∧ t = raiseFatal .fetchOutOfRange s) ∨
      (fetchable s.pc = true ∧ exec (fetchedInstr s) (advancePc s) = .next t) := by
  cases hf : fetchable s.pc
  · simp only [cycle, hf, Bool.false_eq_true, if_false, fatal_eq] at h
    cases h; exact .inl ⟨rfl, rfl⟩
  · simp only [cycle, hf, if_true] at h
    exact .inr ⟨rfl, h⟩

/-- What a step can do: nothing (Halted, Panicked), or one cycle in Running. -/
theorem step_next (h : step s = .next t) :
    ((s.run = .halted ∨ s.run = .panicked) ∧ t = s) ∨
      ((s.run = .idle ∨ s.run = .running) ∧ cycle (setRun .running s) = .next t) := by
  cases hr : s.run
  · rw [step_of_idle hr] at h; exact .inr ⟨.inl rfl, h⟩
  · rw [step_of_running hr] at h
    have hs : setRun .running s = s := by rw [setRun, ← hr]
    exact .inr ⟨.inr rfl, by rw [hs]; exact h⟩
  · rw [step_of_halted hr] at h; cases h; exact .inl ⟨.inl rfl, rfl⟩
  · rw [step_of_panicked hr] at h; cases h; exact .inl ⟨.inr rfl, rfl⟩

end Sys2Proof.Machine
end

