-- ==== Sys2Proof/Laws/Requests.lean ====
section
/-! SUPPORT. The host's requests: what each can do; and that a placed word is the one the next step runs. -/

namespace Sys2Proof.Machine

variable {s : State}

@[simp] theorem clearDisplay_eq (s : State) : clearDisplay s = setDisp blankScreen s := rfl
@[simp] theorem fillDisplay_eq (s : State) : fillDisplay s = setDisp (BitVec.allOnes 2048) s := rfl
@[simp] theorem randomizeDisplay_eq (draw : Screen) (s : State) : randomizeDisplay draw s = setDisp draw s := rfl
@[simp] theorem inspect_eq (s : State) : inspect s = s := rfl
@[simp] theorem resetRequest_eq (s : State) : resetRequest s = reinitialise s := rfl

@[simp] theorem loadImage_v (img : List Byte) : (loadImage img s).v = s.v := rfl
@[simp] theorem loadImage_i (img : List Byte) : (loadImage img s).i = s.i := rfl
@[simp] theorem loadImage_pc (img : List Byte) : (loadImage img s).pc = s.pc := rfl
@[simp] theorem loadImage_sp (img : List Byte) : (loadImage img s).sp = s.sp := rfl
@[simp] theorem loadImage_stack (img : List Byte) : (loadImage img s).stack = s.stack := rfl
@[simp] theorem loadImage_dt (img : List Byte) : (loadImage img s).dt = s.dt := rfl
@[simp] theorem loadImage_st (img : List Byte) : (loadImage img s).st = s.st := rfl
@[simp] theorem loadImage_disp (img : List Byte) : (loadImage img s).disp = s.disp := rfl
@[simp] theorem loadImage_mem (img : List Byte) : (loadImage img s).mem = Memory.loadImage s.mem img := rfl
@[simp] theorem loadImage_run (img : List Byte) : (loadImage img s).run = s.run := rfl
@[simp] theorem loadImage_fault (img : List Byte) : (loadImage img s).fault = s.fault := rfl
@[simp] theorem loadImage_config (img : List Byte) : (loadImage img s).config = s.config := rfl
@[simp] theorem loadImage_rndCount (img : List Byte) : (loadImage img s).rndCount = s.rndCount := rfl

/-- What a start request can do. -/
theorem startRequest_cases (s : State) :
    ((s.run = .idle ∨ s.run = .halted) ∧ startRequest s = setRun .running s) ∨
      ((s.run = .running ∨ s.run = .panicked) ∧ startRequest s = s) := by
  cases h : s.run <;> simp [startRequest, h]

/-- What a stop request can do. -/
theorem stopRequest_cases (s : State) :
    (s.run = .running ∧ stopRequest s = setRun .halted s) ∨ (s.run ≠ .running ∧ stopRequest s = s) := by
  cases h : s.run <;> simp [stopRequest, h]

/-- A placed word stands where the next fetch reads. -/
theorem fetchable_placedAt (s : State) : fetchable (placedAt s) = true := by
  unfold placedAt
  split
  · assumption
  · decide

/-- The next fetch after a word is placed reads that word. -/
theorem fetchedInstr_placeWord (h : Memory.wf s.mem = true) (w : Word) :
    fetchedInstr (placeWord w s) = decodeWord w := by
  have hb := (fetchable_iff (placedAt s)).1 (fetchable_placedAt s)
  have hne : fetchAddr (placedAt s) ≠ fetchAddr (placedAt s + 1#16) := by
    intro e
    have := congrArg BitVec.toNat e
    simp [fetchAddr] at this
    omega
  have h0 : readByte (fetchAddr (placedAt s)) (placeWord w s) = firstByte w := by
    simp only [readByte, placeWord]
    rw [Memory.read_write_of_ne _ hne, Memory.read_write_self h]
  have h1 : readByte (fetchAddr (placedAt s + 1#16)) (placeWord w s) = secondByte w := by
    simp only [readByte, placeWord]
    exact Memory.read_write_self (Memory.wf_write h _ _) _ _
  show decode (readByte (fetchAddr (placedAt s)) (placeWord w s))
    (readByte (fetchAddr (placedAt s + 1#16)) (placeWord w s)) = _
  rw [h0, h1, decode_bytes]

/-- The step after a word is placed runs that word's instruction. -/
theorem step_placeWord (h : Memory.wf s.mem = true) (w : Word) :
    step (placeWord w s) = exec (decodeWord w) (advancePc (setRun .running (placeWord w s))) := by
  have hf : fetchable (placeWord w s).pc = true := fetchable_placedAt s
  have hr : (placeWord w s).run = runnable s.run := rfl
  have key : cycle (setRun .running (placeWord w s)) =
      exec (decodeWord w) (advancePc (setRun .running (placeWord w s))) := by
    have hi : fetchedInstr (setRun .running (placeWord w s)) = fetchedInstr (placeWord w s) := rfl
    rw [cycle, setRun_pc, hf, if_pos rfl, hi, fetchedInstr_placeWord h]
  rw [← key]
  cases hs : s.run
  · exact step_of_idle (hr.trans (by rw [hs]; rfl))
  all_goals
    have hr' : (placeWord w s).run = .running := hr.trans (by rw [hs]; rfl)
    rw [step_of_running hr']
    exact congrArg cycle (by rw [setRun, ← hr'])

end Sys2Proof.Machine
end

