-- ==== Sys2Proof/Laws/Run.lean ====
section
/-! SUPPORT. Runs: one more step at either end, what an ended run does, what the step that halts did. -/

namespace Sys2Proof.Machine

variable {s t u : State}

@[simp] theorem runSteps_zero (s : State) : runSteps 0 s = .next s := rfl

/-- A first step, and the rest of the run. -/
theorem runSteps_succ (h : step s = .next t) (n : Nat) : runSteps (n + 1) s = runSteps n t := by
  simp only [runSteps, h]

/-- A run that answers took a first step. -/
theorem runSteps_succ_next {n : Nat} (h : runSteps (n + 1) s = .next t) :
    ∃ u, step s = .next u ∧ runSteps n u = .next t := by
  simp only [runSteps] at h
  split at h
  · next u hu => exact ⟨u, hu, h⟩
  · cases h
  · cases h

/-- A run can be cut at any point. -/
theorem runSteps_add {n : Nat} (m : Nat) (h : runSteps n s = .next t) : runSteps (n + m) s = runSteps m t := by
  induction n generalizing s with
  | zero => cases h; rw [Nat.zero_add]
  | succ n ih =>
    obtain ⟨u, hu, hn⟩ := runSteps_succ_next h
    rw [Nat.add_right_comm, runSteps_succ hu, ih hn]

/-- A step in an ended state is a no-op. -/
theorem step_of_ended (h : s.ended) : step s = .next s := h.elim step_of_halted step_of_panicked

/-- So is a run. -/
theorem runSteps_of_ended (h : s.ended) (n : Nat) : runSteps n s = .next s := by
  induction n with
  | zero => rfl
  | succ n ih => rw [runSteps_succ (step_of_ended h), ih]

/-- The step that executes the terminator halts, with `pc` at its address, and changes nothing else (41_control.md R82). -/
theorem step_of_executesTerminator (h : s.executesTerminator) : step s = .next (setRun .halted s) := by
  obtain ⟨hr, hf, hi⟩ := h
  have hpc : s.pc + 2#16 - 2#16 = s.pc := BitVec.add_sub_cancel _ _
  have key : ∀ r : RunState, cycle (setRun r s) = .next (setRun .halted s) := by
    intro r
    have hi' : fetchedInstr (setRun r s) = .terminator := hi
    rw [cycle, setRun_pc, hf, if_pos rfl, hi']
    simp only [exec, execTerminator, rewindPc, advancePc, setPc, setRun, hpc]
  obtain hr | hr := hr
  · rw [step_of_idle hr, key]
  · rw [step_of_running hr]
    have hs : setRun .running s = s := by rw [setRun, ← hr]
    rw [← key .running, hs]

/-- A step out of Idle or Running that halts executed the terminator. -/
theorem executesTerminator_of_step_halted (hr : s.run = .idle ∨ s.run = .running) (h : step s = .next t)
    (ht : t.run = .halted) : s.executesTerminator := by
  obtain ⟨hs, -⟩ | ⟨-, hc⟩ := step_next h
  · rcases hr with hr | hr <;> rw [hr] at hs <;> simp at hs
  · obtain ⟨-, rfl⟩ | ⟨hf, he⟩ := cycle_next hc
    · cases ht
    · refine ⟨hr, hf, ?_⟩
      have hi : fetchedInstr (setRun .running s) = fetchedInstr s := rfl
      rw [hi] at he
      generalize fetchedInstr s = i at he
      cases exec_effect he with
      | terminator => rfl
      | fatal => cases ht
      | drw => rw [applyBlit_run] at ht; cases ht
      | seVxKk | sneVxKk | seVxVy | sneVxVy => revert ht; split <;> exact fun h => by cases h
      | _ => cases ht

end Sys2Proof.Machine
end

