-- ==== Sys2Proof/Tests/Slice0.lean ====
section
/-! SUPPORT. The tests: ill-formed terms, decodings of words written out from the spec, single steps with the results that
95_test_vectors.md gives (their ids stand in the comments), and for each obligation with hypotheses a state that meets
them. -/

namespace Sys2Proof.Tests

open Sys2Proof.Machine Sys2Proof.Claims

/-! ### Well-formedness -/

theorem test_wf_refuses_sys_terminator : (Instr.sys 0x000#12).wf = false := by decide
theorem test_wf_refuses_sys_cls : (Instr.sys 0x0E0#12).wf = false := by decide
theorem test_wf_refuses_sys_ret : (Instr.sys 0x0EE#12).wf = false := by decide
/-- Words with an instruction of their own are not unrecognized. -/
theorem test_wf_refuses_recognized :
    (Instr.unrecognized 0x1234#16).wf = false ∧ (Instr.unrecognized 0x5120#16).wf = false
      ∧ (Instr.unrecognized 0x8AB7#16).wf = false ∧ (Instr.unrecognized 0x8ABE#16).wf = false
      ∧ (Instr.unrecognized 0x9120#16).wf = false ∧ (Instr.unrecognized 0x0000#16).wf = false := by decide
/-- Glyphs past `0x1FF`, and initial content outside its region or not in canonical form. -/
theorem test_wf_refuses_config :
    ({ Config.standard with fontBase := 0x1B1#12 } : Config).wf = false
      ∧ ({ Config.standard with reservedInit := [(0x200, 1#8)] } : Config).wf = false
      ∧ ({ Config.standard with programInit := [(0x1FF, 1#8)] } : Config).wf = false
      ∧ ({ Config.standard with programInit := [(0x300, 0#8)] } : Config).wf = false := by decide
theorem test_memory_wf_refuses :
    Memory.wf [(0x1000, 1#8)] = false ∧ Memory.wf [(2, 1#8), (1, 1#8)] = false ∧ Memory.wf [(1, 0#8)] = false := by decide

/-! ### Decoding: each constructor, from a word written out bit by bit from 30_encoding.md R49 -/

-- TD1, TD2, TD3
theorem test_decode_zero_group :
    decodeWord 0b0000000000000000#16 = .terminator ∧ decodeWord 0b0000000011100000#16 = .cls
      ∧ decodeWord 0b0000000011101110#16 = .ret := by decide
-- TD4, TD5
theorem test_decode_sys :
    decodeWord 0b0000000011100001#16 = .sys 0x0E1#12 ∧ decodeWord 0b0000111111111111#16 = .sys 0xFFF#12 := by decide
-- TD6, TD7
theorem test_decode_jp_call :
    decodeWord 0b0001101010111100#16 = .jp 0xABC#12 ∧ decodeWord 0b0010001100000000#16 = .call 0x300#12 := by decide
-- TD8, TD9
theorem test_decode_skip_immediate :
    decodeWord 0b0011111101000010#16 = .seVxKk 0xF#4 0x42#8
      ∧ decodeWord 0b0100001101000010#16 = .sneVxKk 0x3#4 0x42#8 := by decide
-- TD10, TD17
theorem test_decode_skip_register :
    decodeWord 0b0101000100100000#16 = .seVxVy 0x1#4 0x2#4
      ∧ decodeWord 0b1001000100100000#16 = .sneVxVy 0x1#4 0x2#4 := by decide
-- TD12, TD13
theorem test_decode_immediate :
    decodeWord 0b0110111100000101#16 = .ldVxKk 0xF#4 0x05#8
      ∧ decodeWord 0b0111000000000011#16 = .addVxKk 0x0#4 0x03#8 := by decide
-- TD14
theorem test_decode_alu_low :
    decodeWord 0b1000101010110000#16 = .ldVxVy 0xA#4 0xB#4 ∧ decodeWord 0b1000101010110001#16 = .orVxVy 0xA#4 0xB#4
      ∧ decodeWord 0b1000101010110010#16 = .andVxVy 0xA#4 0xB#4
      ∧ decodeWord 0b1000101010110011#16 = .xorVxVy 0xA#4 0xB#4 := by decide
-- TD14, TD16
theorem test_decode_alu_high :
    decodeWord 0b1000101010110100#16 = .addVxVy 0xA#4 0xB#4 ∧ decodeWord 0b1000101010110101#16 = .subVxVy 0xA#4 0xB#4
      ∧ decodeWord 0b1000101010110110#16 = .shrVx 0xA#4 0xB#4 ∧ decodeWord 0b1000101010110111#16 = .subnVxVy 0xA#4 0xB#4
      ∧ decodeWord 0b1000101010111110#16 = .shlVx 0xA#4 0xB#4 := by decide
-- TD18
theorem test_decode_index_random_draw :
    decodeWord 0b1010001000001100#16 = .ldI 0x20C#12 ∧ decodeWord 0b1011001100000000#16 = .jpV0 0x300#12
      ∧ decodeWord 0b1100001100001111#16 = .rndVxKk 0x3#4 0x0F#8
      ∧ decodeWord 0b1101000100101111#16 = .drw 0x1#4 0x2#4 0xF#4 := by decide
-- TD11, TD15, TD17, TD19
theorem test_decode_unrecognized :
    decodeWord 0x5121#16 = .unrecognized 0x5121#16 ∧ decodeWord 0x8AB8#16 = .unrecognized 0x8AB8#16
      ∧ decodeWord 0x8ABD#16 = .unrecognized 0x8ABD#16 ∧ decodeWord 0x8ABF#16 = .unrecognized 0x8ABF#16
      ∧ decodeWord 0x912F#16 = .unrecognized 0x912F#16 ∧ decodeWord 0xE09E#16 = .unrecognized 0xE09E#16
      ∧ decodeWord 0xF01E#16 = .unrecognized 0xF01E#16 ∧ decodeWord 0xF065#16 = .unrecognized 0xF065#16
      ∧ decodeWord 0xFFFF#16 = .unrecognized 0xFFFF#16 := by decide
-- R34: the byte at the lower address is the high one. S3
theorem test_decode_byte_order : decode 0x60#8 0x05#8 = .ldVxKk 0x0#4 0x05#8 := by decide
theorem test_decode_bytes :
    decodeBytes [0x22#8, 0x06#8, 0xFF#8] = .ok (.call 0x206#12, [0xFF#8])
      ∧ decodeBytes [0x22#8] = .error .fewerThanTwoBytes := by decide
theorem test_encode :
    encodeBytes (.drw 0x1#4 0x2#4 0xF#4) = [0xD1#8, 0x2F#8] ∧ encode (.shlVx 0x4#4 0xF#4) = 0x84FE#16 := by decide
theorem test_decodeTableWord :
    decodeTableWord 16 0x6F05 = some (.ldVxKk 0xF#4 0x05#8) ∧ decodeTableWord 16 0 = some .terminator
      ∧ decodeTableWord 32 0 = none := by decide

/-! ### Single steps -/

/-- The instance of the single steps: that of State.reset, with a blank glyph table (the vectors leave it open). -/
def bare : State := State.construct { Config.standard with fontGlyphs := Vector.replicate 80 0x00#8 }

/-- That machine with a word placed for the next step. -/
def at200 (w : Nat) : State := bare.withFetchWord 16 w

/-- A register set by hand. -/
def withV (x : Reg) (b : Byte) (s : State) : State := setV x b s

/-- A call depth and two slots set by hand. -/
def withStack (sp : Byte) (j : Nat) (w : Word) (k : Nat) (u : Word) (s : State) : State :=
  { s with sp := sp, stack := (s.stack.setIfInBounds j w).setIfInBounds k u }

/-- The other settings of the two parameters. -/
def withRet (r : RetIndex) (s : State) : State := { s with config := { s.config with retIndex := r } }

/-- The other settings of the two parameters. -/
def withSprites (m : SpriteAddressing) (s : State) : State :=
  { s with config := { s.config with spriteAddressing := m } }

/-- Two bytes of memory and `I` set by hand. -/
def withSprite (i : Word) (b0 b1 : Byte) (s : State) : State :=
  { s with i := i, mem := Memory.write (Memory.write s.mem (i.setWidth 12) b0) (i.setWidth 12 + 1#12) b1 }

/-- A check of the next state; a fault or a refusal fails it. -/
def holds (r : Result) (p : State → Bool) : Bool :=
  match r with
  | .next t => p t
  | .fault _ => false
  | .refused _ => false

/-- The step panicked with this reason and this `pc`. -/
def panickedWith (r : FatalReason) (pc : Word) (t : State) : Bool :=
  t.run == .panicked && t.fault == some r && t.pc == pc

-- S3, TF1, TA1
theorem test_step_ld : holds (step (at200 0x6005)) (fun t =>
    getV 0x0#4 t == 0x05#8 && t.pc == 0x202#16 && t.run == .running) = true := by decide
-- S4, TA2
theorem test_step_ld_vf : holds (step (withV 0xF#4 7#8 (at200 0x6F05))) (fun t =>
    panickedWith .reservedRegister 0x202#16 t && getV 0xF#4 t == 7#8) = true := by decide
-- TF4, TF5
theorem test_step_fetch_window :
    holds (step { at200 0 with pc := 0x1FE#16 }) (panickedWith .fetchOutOfRange 0x1FE#16) = true
      ∧ holds (step { at200 0 with pc := 0xFFF#16 }) (panickedWith .fetchOutOfRange 0xFFF#16) = true := by decide
-- TF6, TF7
theorem test_step_fetch_edges :
    holds (step (State.withFetchWord { bare with pc := 0xFFE#16 } 16 0x6105))
        (fun t => getV 0x1#4 t == 5#8 && t.pc == 0x1000#16) = true
      ∧ holds (step (State.withFetchWord { bare with pc := 0x201#16 } 16 0x6107))
        (fun t => getV 0x1#4 t == 7#8 && t.pc == 0x203#16) = true := by decide
-- TF2, TF3
theorem test_step_stopped :
    step { bare with run := .halted } = .next { bare with run := .halted }
      ∧ step { bare with run := .panicked } = .next { bare with run := .panicked } := ⟨rfl, rfl⟩
-- TF8, TE2, TE5
theorem test_step_unrecognized :
    holds (step (at200 0xFFFF)) (panickedWith .invalidOpcode 0x202#16) = true
      ∧ holds (step (at200 0x8F0F)) (panickedWith .invalidOpcode 0x202#16) = true := by decide

-- TC1
theorem test_step_sys : holds (step (at200 0x0123)) (fun t =>
    t.pc == 0x202#16 && t.run == .running && t.fault == none) = true := by decide
-- TC2, TC3
theorem test_step_jp :
    holds (step (at200 0x1300)) (fun t => t.pc == 0x300#16) = true
      ∧ holds (step (at200 0x1200)) (fun t => t.pc == 0x200#16 && t.run == .running) = true := by decide
-- TC4, TC5
theorem test_step_jp_bounds :
    holds (step (at200 0x11FF)) (panickedWith .illegalTarget 0x202#16) = true
      ∧ holds (step (at200 0x1FFF)) (fun t => t.pc == 0xFFF#16) = true := by decide
-- TC6, TC7
theorem test_step_call :
    holds (step (at200 0x2300)) (fun t =>
        stackSlot 0 t == some 0x202#16 && t.sp == 1#8 && t.pc == 0x300#16) = true
      ∧ holds (step { at200 0x2300 with sp := 15#8 }) (fun t =>
        stackSlot 15 t == some 0x202#16 && t.sp == 16#8 && t.pc == 0x300#16) = true := by decide
-- TC8, TC9, TE3
theorem test_step_call_checks :
    holds (step { at200 0x2300 with sp := 16#8 }) (fun t =>
        panickedWith .stackExceeded 0x202#16 t && t.sp == 16#8) = true
      ∧ holds (step { at200 0x2100 with sp := 16#8 }) (panickedWith .illegalTarget 0x202#16) = true := by decide
-- TC10, TC12
theorem test_step_ret_checks :
    holds (step (at200 0x00EE)) (panickedWith .emptyCallStack 0x202#16) = true
      ∧ holds (step (withStack 16#8 15 0x300#16 15 0x300#16 (at200 0x00EE)))
        (panickedWith .stackSlotOutOfRange 0x202#16) = true
      ∧ holds (step (withRet .textbook (withStack 16#8 15 0x300#16 15 0x300#16 (at200 0x00EE)))) (fun t =>
        t.pc == 0x300#16 && t.sp == 15#8) = true := by decide
-- TC11
theorem test_step_ret_indexing :
    holds (step (withStack 1#8 0 0x202#16 1 0x400#16 (at200 0x00EE))) (fun t => t.pc == 0x400#16 && t.sp == 0#8) = true
      ∧ holds (step (withRet .textbook (withStack 1#8 0 0x202#16 1 0x400#16 (at200 0x00EE)))) (fun t =>
        t.pc == 0x202#16 && t.sp == 0#8) = true := by decide
-- TC15, TC18
theorem test_step_jpV0 :
    holds (step (withV 0x0#4 0x10#8 (at200 0xB1F0))) (fun t => t.pc == 0x200#16 && t.run == .running) = true
      ∧ holds (step (withV 0x0#4 0xFF#8 (at200 0xBF00))) (fun t => t.pc == 0xFFF#16 && t.run == .running) = true := by
  decide
-- TC16, TC17
theorem test_step_jpV0_checks :
    holds (step (withV 0x0#4 0x0F#8 (at200 0xB1F0))) (panickedWith .illegalTarget 0x202#16) = true
      ∧ holds (step (withV 0x0#4 0x01#8 (at200 0xBFFF))) (panickedWith .illegalTarget 0x202#16) = true := by decide
-- TC19
theorem test_step_terminator : holds (step (State.withFetchWord { bare with pc := 0x208#16 } 16 0)) (fun t =>
    t.pc == 0x208#16 && t.run == .halted && t.fault == none) = true := by decide

-- TK1, TK2
theorem test_step_se_kk :
    holds (step (withV 0x3#4 0x42#8 (at200 0x3342))) (fun t => t.pc == 0x204#16) = true
      ∧ holds (step (withV 0x3#4 0x41#8 (at200 0x3342))) (fun t => t.pc == 0x202#16) = true := by decide
-- TK3, TK4
theorem test_step_sne_kk :
    holds (step (withV 0x3#4 0x41#8 (at200 0x4342))) (fun t => t.pc == 0x204#16) = true
      ∧ holds (step (withV 0x3#4 0x42#8 (at200 0x4342))) (fun t => t.pc == 0x202#16) = true := by decide
-- TK5, TK6
theorem test_step_se_vy :
    holds (step (withV 0x1#4 7#8 (withV 0x2#4 7#8 (at200 0x5120)))) (fun t => t.pc == 0x204#16) = true
      ∧ holds (step (withV 0x1#4 7#8 (withV 0x2#4 8#8 (at200 0x5120)))) (fun t => t.pc == 0x202#16) = true := by decide
-- TK8, TK9
theorem test_step_sne_vy :
    holds (step (withV 0x1#4 7#8 (withV 0x2#4 8#8 (at200 0x9120)))) (fun t => t.pc == 0x204#16) = true
      ∧ holds (step (withV 0x1#4 7#8 (at200 0x9110))) (fun t => t.pc == 0x202#16) = true := by decide
-- TK10, TK13
theorem test_step_skip_edges :
    holds (step (withV 0xF#4 1#8 (at200 0x3F01))) (fun t => t.pc == 0x204#16 && t.fault == none) = true
      ∧ holds (step (State.withFetchWord { bare with pc := 0xFFE#16 } 16 0x3000)) (fun t =>
        t.pc == 0x1002#16) = true := by decide

-- TA3, TA4
theorem test_step_ld_vy :
    holds (step (withV 0x2#4 0x9C#8 (at200 0x8120))) (fun t => getV 0x1#4 t == 0x9C#8) = true
      ∧ holds (step (withV 0xF#4 1#8 (at200 0x81F0))) (fun t => getV 0x1#4 t == 1#8) = true := by decide
-- TA5
theorem test_step_add_kk : holds (step (withV 0x0#4 0xFE#8 (withV 0xF#4 7#8 (at200 0x7003)))) (fun t =>
    getV 0x0#4 t == 0x01#8 && getV 0xF#4 t == 7#8) = true := by decide
-- TA7, TA9, TA8, TA10
theorem test_step_add_vy :
    holds (step (withV 0x1#4 0xFF#8 (withV 0x2#4 0x01#8 (at200 0x8124)))) (fun t =>
        getV 0x1#4 t == 0x00#8 && getV 0xF#4 t == 1#8) = true
      ∧ holds (step (withV 0x1#4 0xF0#8 (withV 0x2#4 0x0F#8 (at200 0x8124)))) (fun t =>
        getV 0x1#4 t == 0xFF#8 && getV 0xF#4 t == 0#8) = true := by decide
theorem test_step_add_aliases :
    holds (step (withV 0x1#4 0x80#8 (at200 0x8114))) (fun t => getV 0x1#4 t == 0x00#8 && getV 0xF#4 t == 1#8) = true
      ∧ holds (step (withV 0x1#4 0xFF#8 (withV 0xF#4 0x01#8 (at200 0x81F4)))) (fun t =>
        getV 0x1#4 t == 0x00#8 && getV 0xF#4 t == 1#8) = true := by decide
-- TA11
theorem test_step_or : holds (step (withV 0x1#4 0x0F#8 (withV 0x2#4 0xF0#8 (at200 0x8121)))) (fun t =>
    getV 0x1#4 t == 0xFF#8) = true := by decide
theorem test_step_and : holds (step (withV 0x1#4 0x0F#8 (withV 0x2#4 0xF0#8 (at200 0x8122)))) (fun t =>
    getV 0x1#4 t == 0x00#8) = true := by decide
-- TA11, TA12
theorem test_step_xor :
    holds (step (withV 0x1#4 0x0F#8 (withV 0x2#4 0xF0#8 (at200 0x8123)))) (fun t => getV 0x1#4 t == 0xFF#8) = true
      ∧ holds (step (withV 0x1#4 0x5A#8 (at200 0x8113))) (fun t => getV 0x1#4 t == 0x00#8) = true := by decide
-- TA13, TA15, TA16
theorem test_step_sub :
    holds (step (withV 0x1#4 0x30#8 (withV 0x2#4 0x10#8 (at200 0x8125)))) (fun t =>
        getV 0x1#4 t == 0x20#8 && getV 0xF#4 t == 1#8) = true
      ∧ holds (step (withV 0x1#4 0x10#8 (withV 0x2#4 0x10#8 (at200 0x8125)))) (fun t =>
        getV 0x1#4 t == 0x00#8 && getV 0xF#4 t == 0#8) = true
      ∧ holds (step (withV 0x1#4 0x10#8 (withV 0x2#4 0x20#8 (at200 0x8125)))) (fun t =>
        getV 0x1#4 t == 0xF0#8 && getV 0xF#4 t == 0#8) = true := by decide
-- TA17, TA18
theorem test_step_sub_flag_source :
    holds (step (withV 0x1#4 0x05#8 (withV 0xF#4 0x03#8 (at200 0x81F5)))) (fun t =>
        getV 0x1#4 t == 0x04#8 && getV 0xF#4 t == 1#8) = true
      ∧ holds (step (withV 0x1#4 0x00#8 (withV 0xF#4 0x03#8 (at200 0x81F5)))) (fun t =>
        getV 0x1#4 t == 0x00#8 && getV 0xF#4 t == 0#8) = true := by decide
-- TA19, TA20
theorem test_step_subn :
    holds (step (withV 0x1#4 0x10#8 (withV 0x2#4 0x30#8 (at200 0x8127)))) (fun t =>
        getV 0x1#4 t == 0x20#8 && getV 0xF#4 t == 1#8) = true
      ∧ holds (step (withV 0x1#4 0x20#8 (withV 0x2#4 0x10#8 (at200 0x8127)))) (fun t =>
        getV 0x1#4 t == 0xF0#8 && getV 0xF#4 t == 0#8) = true := by decide
-- TA21
theorem test_step_subn_flag_source : holds (step (withV 0x1#4 0x01#8 (withV 0xF#4 0x03#8 (at200 0x81F7)))) (fun t =>
    getV 0x1#4 t == 0x00#8 && getV 0xF#4 t == 1#8) = true := by decide
-- TA22, TA23
theorem test_step_shr :
    holds (step (withV 0x4#4 0x05#8 (at200 0x8406))) (fun t => getV 0x4#4 t == 0x02#8 && getV 0xF#4 t == 1#8) = true
      ∧ holds (step (withV 0x4#4 0x80#8 (withV 0x5#4 0xFF#8 (at200 0x8456)))) (fun t =>
        getV 0x4#4 t == 0x40#8 && getV 0xF#4 t == 0#8) = true := by decide
-- TA24, TA25
theorem test_step_shl :
    holds (step (withV 0x4#4 0xC1#8 (at200 0x840E))) (fun t => getV 0x4#4 t == 0x82#8 && getV 0xF#4 t == 1#8) = true
      ∧ holds (step (withV 0x4#4 0x7F#8 (at200 0x84FE))) (fun t =>
        getV 0x4#4 t == 0xFE#8 && getV 0xF#4 t == 0#8) = true := by decide
-- TA27, TA28
theorem test_step_ld_i :
    holds (step (at200 0xA20C)) (fun t => t.i == 0x020C#16) = true
      ∧ holds (step { at200 0xA000 with i := 0xFFFF#16 }) (fun t => t.i == 0x0000#16) = true := by decide
-- TA29, and TA30 for every draw
theorem test_rnd_draw : holds (rndWith 0xA7#8 0x3#4 0x0F#8 bare) (fun t =>
    getV 0x3#4 t == 0x07#8 && t.rndCount == 1) = true := by decide
-- TA31
theorem test_step_rnd_vf : holds (step (at200 0xCF55)) (fun t =>
    panickedWith .reservedRegister 0x202#16 t && t.rndCount == 0) = true := by decide

-- TP1
theorem test_step_cls : holds (step { at200 0x00E0 with disp := BitVec.ofNat 2048 5 }) (fun t =>
    t.disp == 0#2048) = true := by decide +kernel
-- TP4
theorem test_step_drw : holds (step (withV 0x0#4 10#8 (withV 0x1#4 5#8 (withSprite 0x20C#16 0x81#8 0xFF#8 (at200 0xD012)))))
    (fun t => t.disp == BitVec.ofNat 2048 (2 ^ 330 + 2 ^ 337 + 255 * 2 ^ 394) && getV 0xF#4 t == 0#8) = true := by decide +kernel
-- TP5, TP6
theorem test_step_drw_collision :
    holds (step { withV 0x0#4 10#8 (withV 0x1#4 5#8 (withSprite 0x20C#16 0x80#8 0#8 (at200 0xD011))) with
        disp := BitVec.ofNat 2048 (2 ^ 330) }) (fun t => t.disp == 0#2048 && getV 0xF#4 t == 1#8) = true
      ∧ holds (step { withV 0x0#4 10#8 (withV 0x1#4 5#8 (withV 0xF#4 7#8
          (withSprite 0x20C#16 0x80#8 0#8 (at200 0xD011)))) with disp := BitVec.ofNat 2048 (2 ^ 331) }) (fun t =>
        t.disp == BitVec.ofNat 2048 (2 ^ 330 + 2 ^ 331) && getV 0xF#4 t == 7#8) = true := by decide +kernel
/-- The state of TP7 and of TP8 and TP9: one sprite row at a position. -/
def spriteAt (px py row : Byte) : State :=
  withV 0x0#4 px (withV 0x1#4 py (withSprite 0x20C#16 row 0#8 (at200 0xD011)))
-- TP7
theorem test_drw_edge_right :
    holds (step (spriteAt 62#8 0#8 0xF0#8)) (fun t => t.disp == BitVec.ofNat 2048 (15 * 2 ^ 62)) = true
      ∧ holds (step (withSprites .linearDrop (spriteAt 62#8 0#8 0xF0#8))) (fun t =>
        t.disp == BitVec.ofNat 2048 (15 * 2 ^ 62)) = true
      ∧ holds (step (withSprites .toroidal (spriteAt 62#8 0#8 0xF0#8))) (fun t =>
        t.disp == BitVec.ofNat 2048 (2 ^ 62 + 2 ^ 63 + 2 ^ 0 + 2 ^ 1)) = true := by decide +kernel
-- TP8, TP9
theorem test_drw_edge_last :
    holds (step (spriteAt 63#8 31#8 0x80#8)) (fun t =>
        panickedWith .pixelOutOfRange 0x202#16 t && t.disp == 0#2048) = true
      ∧ holds (step (withSprites .linearDrop (spriteAt 63#8 31#8 0xC0#8))) (fun t =>
        t.disp == BitVec.ofNat 2048 (2 ^ 2047)) = true
      ∧ holds (step (withSprites .toroidal (spriteAt 63#8 31#8 0xC0#8))) (fun t =>
        t.disp == BitVec.ofNat 2048 (2 ^ 2047 + 2 ^ 1984)) = true := by decide +kernel
-- TP11, TE4, TP12
theorem test_drw_sprite_past_memory :
    holds (step { at200 0xD013 with i := 0xFFE#16 }) (panickedWith .spriteReadOutOfRange 0x202#16) = true
      ∧ holds (step { spriteAt 63#8 31#8 0xFF#8 with i := 0xFFF#16 }) (panickedWith .pixelOutOfRange 0x202#16) = true
      ∧ holds (step (withSprite 0xFFE#16 0xFF#8 0xFF#8 (at200 0xD012))) (fun t =>
        t.disp == BitVec.ofNat 2048 (255 * 2 ^ 0 + 255 * 2 ^ 64)) = true := by decide +kernel
-- TE4
theorem test_drw_fault_order : holds (step (withV 0x0#4 63#8 (withV 0x1#4 31#8 { at200 0xD012 with i := 0xFFF#16 })))
    (panickedWith .spriteReadOutOfRange 0x202#16) = true := by decide +kernel
-- TP13, TP14
theorem test_drw_index_and_empty :
    holds (step { withSprite 0x20C#16 0xC0#8 0#8 (at200 0xD011) with i := 0xF20C#16 }) (fun t =>
        t.disp == BitVec.ofNat 2048 3 && t.i == 0xF20C#16) = true
      ∧ holds (step (withV 0x0#4 0xFF#8 (withV 0x1#4 0xFF#8 (at200 0xD010)))) (fun t =>
        t.disp == 0#2048 && t.fault == none && t.pc == 0x202#16) = true := by decide +kernel
-- TP15, TP16
theorem test_drw_flag_coordinate :
    holds (step (withV 0xF#4 2#8 (withSprite 0x20C#16 0x80#8 0#8 (at200 0xDF11)))) (fun t =>
        t.disp == BitVec.ofNat 2048 4 && getV 0xF#4 t == 2#8) = true
      ∧ holds (step { withV 0xF#4 2#8 (withSprite 0x20C#16 0x80#8 0#8 (at200 0xDF11)) with disp := BitVec.ofNat 2048 4 })
        (fun t => t.disp == 0#2048 && getV 0xF#4 t == 1#8) = true := by decide +kernel

/-! ### Host requests -/

-- TF9, TF10, TF11
theorem test_start_stop :
    (startRequest { State.reset with run := .halted }).run = .running
      ∧ (startRequest { State.reset with run := .panicked }).run = .panicked
      ∧ (stopRequest { State.reset with run := .running }).run = .halted := ⟨rfl, rfl, rfl⟩
-- 40_step.md R75: a stop request before another instruction is no good end; the terminator's own halt is one
theorem test_endedWell :
    ¬ (stopRequest { at200 0x6005 with run := .running }).endedWell
      ∧ (setRun .halted bare).endedWell ∧ ¬ RunEndedWell 0 (setRun .halted bare) (setRun .halted bare) := by
  refine ⟨?_, ?_, fun h => Nat.lt_irrefl 0 h.1.1⟩
  · unfold State.endedWell State.atTerminator; decide
  · unfold State.endedWell State.atTerminator; decide
-- TF14
theorem test_load_image :
    (loadImage [0x12#8] { State.reset with mem := [(0x1FF, 1#8), (0x200, 3#8), (0x300, 3#8)] }).mem
      = [(0x1FF, 1#8), (0x200, 0x12#8)] := by decide
-- TF12
theorem test_reset : resetRequest { State.reset with run := .panicked, fault := some .illegalTarget, pc := 0x300#16 }
    = State.reset := by decide +kernel
-- 30_encoding.md R61, on the image of Program 5 (95_test_vectors.md)
theorem test_disassemble : disassembleFrom (loadImage [0x22#8, 0x00#8] bare) 9 0x200#12
    = [(0x200#12, .call 0x200#12), (0x202#12, .terminator)] := by decide
/-- The first glyph of the table and its last byte (93_implementation_defined.md K5), and the bytes past them. -/
theorem test_reset_glyphs :
    readByte 0x000#12 State.reset = 0xF0#8 ∧ readByte 0x001#12 State.reset = 0x90#8
      ∧ readByte 0x04F#12 State.reset = 0x80#8 ∧ readByte 0x050#12 State.reset = 0x00#8
      ∧ readByte 0x200#12 State.reset = 0x00#8 := by decide
/-- The first step after reset runs the word placed for it. S3 -/
theorem test_first_step : holds (step (State.reset.withFetchWord 16 0x6005)) (fun t =>
    getV 0x0#4 t == 0x05#8 && t.pc == 0x202#16 && t.run == .running) = true := by decide
theorem test_core_reset : Sys2Proof.core.reset = State.reset := rfl

/-! ### Witnesses: for each obligation with hypotheses, states and operands that meet them, at the boundaries of each
clause -/

/-- A state whose run state is Running. -/
def running : State := { bare with run := .running }

theorem witness_DecodeOfEncode :
    (Instr.sys 0x001#12).wf = true ∧ (Instr.sys 0xFFF#12).wf = true ∧ (Instr.unrecognized 0x8008#16).wf = true
      ∧ (Instr.unrecognized 0xFFFF#16).wf = true ∧ (Instr.shlVx 0xF#4 0xF#4).wf = true
      ∧ (Instr.drw 0xF#4 0xF#4 0xF#4).wf = true := by decide

/-- The least and the greatest word of each row; the rows of one word need no witness. -/
theorem witness_DecodeFollowsMaskAndMatch_nibble :
    (0x0001#16 &&& 0xF000#16 = 0x0000#16 ∧ 0x0FFF#16 &&& 0xF000#16 = 0x0000#16 ∧ (0x0001#16 ≠ 0x00E0#16))
      ∧ (0x1000#16 &&& 0xF000#16 = 0x1000#16 ∧ 0x1FFF#16 &&& 0xF000#16 = 0x1000#16)
      ∧ (0x2000#16 &&& 0xF000#16 = 0x2000#16 ∧ 0x2FFF#16 &&& 0xF000#16 = 0x2000#16)
      ∧ (0x3000#16 &&& 0xF000#16 = 0x3000#16 ∧ 0x3FFF#16 &&& 0xF000#16 = 0x3000#16)
      ∧ (0x4000#16 &&& 0xF000#16 = 0x4000#16 ∧ 0x4FFF#16 &&& 0xF000#16 = 0x4000#16)
      ∧ (0x6000#16 &&& 0xF000#16 = 0x6000#16 ∧ 0x6FFF#16 &&& 0xF000#16 = 0x6000#16)
      ∧ (0x7000#16 &&& 0xF000#16 = 0x7000#16 ∧ 0x7FFF#16 &&& 0xF000#16 = 0x7000#16)
      ∧ (0xA000#16 &&& 0xF000#16 = 0xA000#16 ∧ 0xAFFF#16 &&& 0xF000#16 = 0xA000#16)
      ∧ (0xB000#16 &&& 0xF000#16 = 0xB000#16 ∧ 0xBFFF#16 &&& 0xF000#16 = 0xB000#16)
      ∧ (0xC000#16 &&& 0xF000#16 = 0xC000#16 ∧ 0xCFFF#16 &&& 0xF000#16 = 0xC000#16)
      ∧ (0xD000#16 &&& 0xF000#16 = 0xD000#16 ∧ 0xDFFF#16 &&& 0xF000#16 = 0xD000#16) := by decide

theorem witness_DecodeFollowsMaskAndMatch_pair :
    (0x5000#16 &&& 0xF00F#16 = 0x5000#16 ∧ 0x5FF0#16 &&& 0xF00F#16 = 0x5000#16)
      ∧ (0x9000#16 &&& 0xF00F#16 = 0x9000#16 ∧ 0x9FF0#16 &&& 0xF00F#16 = 0x9000#16)
      ∧ 0x8FF0#16 &&& 0xF00F#16 = 0x8000#16 ∧ 0x8FF1#16 &&& 0xF00F#16 = 0x8001#16
      ∧ 0x8FF2#16 &&& 0xF00F#16 = 0x8002#16 ∧ 0x8FF3#16 &&& 0xF00F#16 = 0x8003#16
      ∧ 0x8FF4#16 &&& 0xF00F#16 = 0x8004#16 ∧ 0x8FF5#16 &&& 0xF00F#16 = 0x8005#16
      ∧ 0x8FF6#16 &&& 0xF00F#16 = 0x8006#16 ∧ 0x8FF7#16 &&& 0xF00F#16 = 0x8007#16
      ∧ 0x8FFE#16 &&& 0xF00F#16 = 0x800E#16 := by decide

theorem witness_DecodeFollowsMaskAndMatch_unrecognized :
    (0x5001#16 &&& 0xF000#16 = 0x5000#16 ∧ (0x5001#16).extractLsb' 0 4 ≠ 0#4)
      ∧ (0x9FFF#16 &&& 0xF000#16 = 0x9000#16 ∧ (0x9FFF#16).extractLsb' 0 4 ≠ 0#4)
      ∧ (0x8008#16 &&& 0xF000#16 = 0x8000#16 ∧ 8 ≤ ((0x8008#16).extractLsb' 0 4).toNat
          ∧ (0x8008#16).extractLsb' 0 4 ≠ 0xE#4)
      ∧ (0x8FFF#16 &&& 0xF000#16 = 0x8000#16 ∧ 8 ≤ ((0x8FFF#16).extractLsb' 0 4).toNat
          ∧ (0x8FFF#16).extractLsb' 0 4 ≠ 0xE#4)
      ∧ 0xE000#16 &&& 0xF000#16 = 0xE000#16 ∧ 0xFFFF#16 &&& 0xF000#16 = 0xF000#16 := by decide

/-- Idle at the first and Running at the last address that can be fetched. -/
theorem witness_StepRunsTheDecodedInstruction : Ready State.reset ∧ Ready { running with pc := 0xFFE#16 } := by
  unfold Ready; decide

theorem witness_FetchOutsideWindowPanics :
    (running.run = .idle ∨ running.run = .running)
      ∧ (({ running with pc := 0x1FF#16 } : State).pc.toNat < 0x200)
      ∧ 0xFFE < ({ running with pc := 0xFFF#16 } : State).pc.toNat := by decide

theorem witness_StoppedStepIsNoOp :
    ({ State.reset with run := .halted } : State).run = .halted
      ∧ ({ State.reset with run := .panicked } : State).run = .panicked := ⟨rfl, rfl⟩

/-- A `JP` to its own address at the first and at the last target that can be fetched. -/
theorem witness_JpJumpsOrPanics :
    0x200 ≤ (0x200#12 : Addr).toNat ∧ 0x200 ≤ (0xFFF#12 : Addr).toNat ∧ (0x1FF#12 : Addr).toNat < 0x200
      ∧ Ready { at200 0x1200 with run := .running }
      ∧ WordAt { at200 0x1200 with run := .running } (0x1000#16 ||| (0x200#12 : Addr).setWidth 16)
      ∧ WordAt (State.withFetchWord { running with pc := 0xFFE#16 } 16 0x1FFE)
          (0x1000#16 ||| (0xFFE#12 : Addr).setWidth 16) := by
  unfold Ready WordAt; decide

theorem witness_SysIsNoOp :
    (0x001#12 ≠ 0x000#12 ∧ 0x001#12 ≠ 0x0E0#12 ∧ 0x001#12 ≠ 0x0EE#12)
      ∧ (0xFFF#12 ≠ 0x000#12 ∧ 0xFFF#12 ≠ 0x0E0#12 ∧ 0xFFF#12 ≠ 0x0EE#12) := by decide

theorem witness_SkipOnRegisters : (0x1#4 : Nibble) ≠ 0x0#4 ∧ (0xF#4 : Nibble) ≠ 0x0#4 := by decide

theorem witness_JpV0JumpsOrPanics :
    0x200 ≤ (0x1F0#12 : Addr).toNat + (getV 0#4 (withV 0x0#4 0x10#8 running)).toNat
      ∧ (0xF00#12 : Addr).toNat + (getV 0#4 (withV 0x0#4 0xFF#8 running)).toNat ≤ 0xFFF
      ∧ (0x1F0#12 : Addr).toNat + (getV 0#4 (withV 0x0#4 0x0F#8 running)).toNat < 0x200
      ∧ 0xFFF < (0xFFF#12 : Addr).toNat + (getV 0#4 (withV 0x0#4 0x01#8 running)).toNat := by decide

theorem witness_CallPushesOrPanics :
    0x200 ≤ (0x200#12 : Addr).toNat ∧ ({ running with sp := 15#8 } : State).sp.toNat < 16
      ∧ (0x1FF#12 : Addr).toNat < 0x200 ∧ 16 ≤ ({ running with sp := 16#8 } : State).sp.toNat := by decide

theorem witness_RetPopsOrPanics :
    (running.config.retIndex = .reference ∧ 0 < ({ running with sp := 1#8 } : State).sp.toNat
        ∧ ({ running with sp := 15#8 } : State).sp.toNat < 16)
      ∧ (withRet .textbook { running with sp := 16#8 }).config.retIndex = .textbook
      ∧ (withRet .textbook { running with sp := 16#8 }).sp.toNat ≤ 16
      ∧ running.sp.toNat = 0 ∧ ({ running with sp := 16#8 } : State).sp.toNat = 16
      ∧ 16 < ({ running with sp := 17#8 } : State).sp.toNat := by decide

theorem witness_CallThenRet :
    0x200 ≤ (0x200#12 : Addr).toNat
      ∧ ((withRet .textbook { running with sp := 15#8 }).config.retIndex = .textbook
          ∧ (withRet .textbook { running with sp := 15#8 }).sp.toNat < 16)
      ∧ (({ running with sp := 14#8 } : State).config.retIndex = .reference
          ∧ ({ running with sp := 14#8 } : State).sp.toNat < 15) := by decide

theorem witness_TerminatorIsIdempotent :
    Ready running ∧ running.run = .running ∧ WordAt running 0x0000#16
      ∧ Ready { running with pc := 0xFFE#16 } ∧ WordAt { running with pc := 0xFFE#16 } 0x0000#16 := by
  unfold Ready WordAt; decide

theorem witness_SkippedWordIsNotRead :
    isSkip (.seVxKk 0xF#4 0xFF#8) = true ∧ isSkip (.sneVxKk 0x0#4 0x00#8) = true
      ∧ isSkip (.seVxVy 0xF#4 0xF#4) = true ∧ isSkip (.sneVxVy 0x0#4 0x0#4) = true := by decide

/-- The destinations of LoadImmediate, LoadRegister, AddImmediate, AddRegister, BitwiseOperations, Subtractions,
ShiftRight, ShiftLeft, RandomMasked and DrawTwiceRestores: the first and last that are allowed, beside `VF`. -/
theorem witness_destinations : (0x0#4 : Reg) ≠ 0xF#4 ∧ (0xE#4 : Reg) ≠ 0xF#4 := by decide

theorem witness_ReservedRegisterCheck :
    explicitDest (.shlVx 0xF#4 0x0#4) = some 0xF#4 ∧ explicitDest (.shlVx 0xE#4 0xF#4) ≠ some 0xF#4
      ∧ explicitDest (.drw 0xF#4 0xF#4 0xF#4) ≠ some 0xF#4 ∧ running.fault ≠ some .reservedRegister
      ∧ ∃ t, exec (.shlVx 0xE#4 0xF#4) running = .next t := by
  refine ⟨by decide, by decide, by decide, by decide, _, rfl⟩

/-- The last 15 bytes of memory at the bottom right corner, and a cell of it that holds 1. -/
def cornerSprite : State :=
  { withV 0x0#4 56#8 (withV 0x1#4 17#8 (withSprite 0xFF1#16 0x80#8 0#8 running)) with
    disp := BitVec.ofNat 2048 (2 ^ 1144) }

theorem witness_DrawTogglesTheSpriteCells :
    SpriteInMemory 0xF#4 cornerSprite ∧ SpriteOnScreen 0x0#4 0x1#4 0xF#4 cornerSprite
      ∧ SpriteInMemory 0x0#4 running ∧ SpriteOnScreen 0x0#4 0x1#4 0x0#4 running := by
  unfold SpriteInMemory SpriteOnScreen; decide +kernel

theorem witness_DrawTogglesTheSpriteCells_collision :
    1144 < 2048 ∧ SpriteHits 0x0#4 0x1#4 0xF#4 cornerSprite 1144 ∧ pixel 1144 cornerSprite = true := by
  refine ⟨by decide, ⟨0, 0, by decide +kernel⟩, by decide +kernel⟩

theorem witness_DrawTogglesTheSpriteCells_no_collision :
    ¬ ∃ k, k < 2048 ∧ SpriteHits 0x0#4 0x1#4 0x0#4 running k ∧ pixel k running = true := by
  rintro ⟨k, -, ⟨r, c, hr, -⟩, -⟩
  exact Nat.not_lt_zero _ hr

theorem witness_DrawChecksPanic :
    ¬ SpriteInMemory 0x2#4 { running with i := 0xFFF#16 } ∧ SpriteInMemory 0x1#4 { running with i := 0xFFF#16 }
      ∧ ¬ SpriteOnScreen 0x0#4 0x1#4 0x1#4 (withV 0x0#4 57#8 (withV 0x1#4 31#8 running)) := by
  unfold SpriteInMemory SpriteOnScreen; decide +kernel

/-- The hypotheses of DrawTwiceRestores are those of DrawTogglesTheSpriteCells with `x = 0` and `y = 1`. -/
theorem witness_DrawTwiceRestores :
    (0x0#4 : Reg) ≠ 0xF#4 ∧ (0x1#4 : Reg) ≠ 0xF#4 ∧ SpriteInMemory 0xF#4 cornerSprite
      ∧ SpriteOnScreen 0x0#4 0x1#4 0xF#4 cornerSprite ∧ SpriteHits 0x0#4 0x1#4 0xF#4 cornerSprite 1144 :=
  ⟨by decide, by decide, witness_DrawTogglesTheSpriteCells.1, witness_DrawTogglesTheSpriteCells.2.1,
    witness_DrawTogglesTheSpriteCells_collision.2.1⟩

theorem witness_CellsOfOneDrawAreDistinct :
    cellOf .toroidal 0xFF#8 0xFF#8 14 7 = some 838 ∧ cellOf .linearFault 56#8 17#8 14 7 = some 2047
      ∧ cellOf .linearDrop 56#8 17#8 14 8 = none := by decide

theorem witness_FatalConditionIsPrecise :
    (∃ t, step (at200 0xFFFF) = .next t ∧ (at200 0xFFFF).run ≠ .panicked ∧ t.run = .panicked)
      ∧ ∃ t, step { running with pc := 0xFFF#16 } = .next t ∧ running.run ≠ .panicked ∧ t.run = .panicked :=
  ⟨⟨_, rfl, by decide, rfl⟩, ⟨_, rfl, by decide, rfl⟩⟩

theorem witness_FatalReasonsByInstruction :
    ∃ t, exec (.call 0x200#12) { running with sp := 16#8 } = .next t ∧ running.run ≠ .panicked ∧ t.run = .panicked
      ∧ t.fault = some .stackExceeded := ⟨_, rfl, by decide, rfl, rfl⟩

theorem witness_PanickedIsLeftOnlyByReset :
    ({ State.reset with run := .panicked, fault := some .illegalTarget } : State).run = .panicked
      ∧ Request.start ≠ Request.reset := by decide

theorem witness_OnlyLoadAndResetWriteMemory :
    (∃ t, exec (.ldI 0xFFF#12) running = .next t)
      ∧ ∃ t, serve .step State.reset = .next t ∧ Request.step ≠ Request.reset ∧ ∀ img, Request.step ≠ .loadImage img :=
  ⟨⟨_, rfl⟩, _, rfl, by decide, nofun⟩

theorem witness_TimersAndConfigAreInert : ∃ t, serve .step State.reset = .next t ∧ Request.step ≠ Request.reset :=
  ⟨_, rfl, by decide⟩

theorem witness_FlagWriters :
    ∃ t, exec (.shrVx 0x4#4 0x0#4) (withV 0x4#4 5#8 running) = .next t
      ∧ getV 0xF#4 t ≠ getV 0xF#4 (withV 0x4#4 5#8 running) := ⟨_, rfl, by decide⟩

theorem witness_PcWriters :
    (∃ t, exec .cls running = .next t ∧ writesPc .cls = false)
      ∧ (∃ t, exec (.seVxVy 0xF#4 0xF#4) running = .next t ∧ isSkip (.seVxVy 0xF#4 0xF#4) = true)
      ∧ (∃ t, exec .terminator running = .next t) ∧ (∃ t, exec (.jp 0x1FF#12) running = .next t)
      ∧ (∃ t, exec (.call 0xFFF#12) running = .next t) ∧ (∃ t, exec (.jpV0 0xFFF#12) running = .next t)
      ∧ ∃ t, exec .ret { running with sp := 15#8 } = .next t :=
  ⟨⟨_, rfl, rfl⟩, ⟨_, rfl, rfl⟩, ⟨_, rfl⟩, ⟨_, rfl⟩, ⟨_, rfl⟩, ⟨_, rfl⟩, ⟨_, rfl⟩⟩

theorem witness_StackPointerWriters :
    (∃ t, exec (.call 0x200#12) { running with sp := 15#8 } = .next t)
      ∧ (∃ t, exec .ret { running with sp := 1#8 } = .next t) ∧ ({ running with sp := 16#8 } : State).sp.toNat ≤ 16 :=
  ⟨⟨_, rfl⟩, ⟨_, rfl⟩, by decide⟩

theorem witness_StackSlotWriters : ∃ t, exec (.call 0xFFF#12) { running with sp := 15#8 } = .next t := ⟨_, rfl⟩

theorem witness_IndexRegisterUse :
    (∃ t, exec (.ldI 0xFFF#12) running = .next t) ∧ (∀ x y n, Instr.cls ≠ .drw x y n)
      ∧ (∀ nnn, Instr.cls ≠ .ldI nnn) ∧ (0xF20C#16 : Word).toNat % 4096 = (0x020C#16 : Word).toNat % 4096 :=
  ⟨⟨_, rfl⟩, nofun, nofun, by decide⟩

theorem witness_DisplayWriters :
    (∃ t, exec .ret { running with sp := 1#8 } = .next t) ∧ Instr.ret ≠ .cls ∧ (∀ x y n, Instr.ret ≠ .drw x y n)
      ∧ (∃ t, serve .start State.reset = .next t) ∧ Request.start ≠ .displayFill
      ∧ ∀ d, Request.start ≠ .displayRandomize d := by
  refine ⟨⟨_, rfl⟩, by decide, nofun, ⟨_, rfl⟩, by decide, ?_⟩
  intro d h
  cases h

theorem witness_RunStateTransitions :
    (∃ t, serve .step State.reset = .next t ∧ fetchable State.reset.pc = true
        ∧ fetchedInstr State.reset = .terminator ∧ t.run = .halted)
      ∧ (∃ t, serve .step { running with run := .halted } = .next t)
      ∧ (∃ t, serve .step { running with pc := 0x1FF#16 } = .next t ∧ t.run = .panicked)
      ∧ (∃ t, serve .start State.reset = .next t) ∧ (∃ t, serve .stop running = .next t)
      ∧ (∃ t, serve .reset running = .next t) ∧ ∃ t, serve .displayFill running = .next t :=
  ⟨⟨_, rfl, by decide, by decide, rfl⟩, ⟨_, rfl⟩, ⟨_, rfl, rfl⟩, ⟨_, rfl⟩, ⟨_, rfl⟩, ⟨_, rfl⟩, ⟨_, rfl⟩⟩

/-- A run of one step that ends at a terminator, one that ends in a panic, and one that does not end. -/
theorem witness_RunsEndWellOrBadly :
    (running.run = .running ∧ running.fault = none ∧ ∃ t, RunEnded 1 running t ∧ t.run = .halted)
      ∧ (∃ t, RunEnded 1 { running with pc := 0xFFF#16 } t ∧ t.run = .panicked)
      ∧ (∃ t, runSteps 1 { running with sp := 16#8, mem := [(0x200, 0x12#8)] } = .next t ∧ t.run ≠ .panicked)
      ∧ ∀ k u, k < 1 → runSteps k { running with sp := 16#8, mem := [(0x200, 0x12#8)] } = .next u →
          ¬ u.executesTerminator := by
  refine ⟨⟨rfl, rfl, _, ⟨Nat.one_pos, rfl, .inl rfl⟩, rfl⟩, ⟨_, ⟨Nat.one_pos, rfl, .inr rfl⟩, rfl⟩,
    ⟨_, rfl, by decide⟩, ?_⟩
  rintro k u hk h ⟨-, -, hi⟩
  obtain rfl : k = 0 := by omega
  cases h
  exact absurd hi (by decide)

theorem reset_inv : State.reset.Inv := by
  unfold State.Inv State.spInRange State.faultMatchesRun; decide

/-- A well-formed record with every parameter at another value. -/
def otherConfig : Config :=
  { Config.standard with
    retIndex := .textbook, spriteAddressing := .toroidal, fontBase := 0x1B0#12, initI := 0xFFFF#16
    reservedInit := [(0x000, 1#8), (0x1FF, 2#8)], programInit := [(0x200, 3#8), (0xFFF, 4#8)] }

theorem witness_ConstructionMeetsInv : Config.standard.wf = true ∧ otherConfig.wf = true := by decide

theorem witness_StepKeepsInv : State.reset.Inv ∧ ∃ t, step State.reset = .next t := ⟨reset_inv, _, rfl⟩

theorem witness_HostRequestsKeepInv : Request.stop ≠ .step ∧ State.reset.Inv ∧ ∃ t, serve .stop State.reset = .next t :=
  ⟨by decide, reset_inv, _, rfl⟩

theorem witness_EveryRequestAnswers : State.reset.Inv := reset_inv

theorem witness_StepKeepsIndexBounded :
    State.reset.indexBounded ∧ (State.construct otherConfig).indexBounded ∧ ∃ t, step State.reset = .next t :=
  ⟨.inr rfl, .inr rfl, _, rfl⟩

theorem witness_StepKeepsPcBounded :
    State.reset.slotsBounded ∧ State.reset.pcBounded ∧ ∃ t, step State.reset = .next t :=
  ⟨fun _ => .inr rfl, .inl (by decide), _, rfl⟩

/-- One address of each clause, at both ends: glyphs at `0x1B0`..`0x1FF`, below them, and the program region. -/
theorem witness_ConstructionMemory :
    otherConfig.wf = true ∧ otherConfig.fontBase.toNat ≤ (0x1FF#12 : Addr).toNat
      ∧ (0x1FF#12 : Addr).toNat < otherConfig.fontBase.toNat + 80
      ∧ ¬ otherConfig.fontBase.toNat ≤ (0x1AF#12 : Addr).toNat ∧ ¬ (0x200#12 : Addr).toNat < 0x200 := by decide

theorem witness_ImageLoadFillsProgramRegion : Memory.wf [(0x1FF, 1#8), (0x200, 3#8), (0xFFF, 4#8)] = true := by decide

end Sys2Proof.Tests
end

section
/-! PROOFS of the family 10_state.md: who reads and writes `I` (R16), and the transitions of the run state (R23). -/

namespace Sys2Proof.Machine

open Sys2Proof.Claims

variable {s t : State}

/-! ### The index register: what does not read `I` commutes with a write of it -/

/-- A checked destination does not read `I`, if its effect does not. -/
theorem withDest_setI {x : Reg} {f g : State → State} {w : Word} (hfg : f (setI w s) = setI w (g s)) :
    withDest x (setI w s) f = mapNext (setI w) (withDest x s g) := by
  by_cases hx : x = flagReg
  · subst hx; rw [withDest_flagReg, withDest_flagReg]; rfl
  · rw [withDest_of_ne hx, withDest_of_ne hx, hfg]; rfl

/-- A checked target does not read `I`, if what follows the check does not. -/
theorem withTarget_setI {a w : Word} {f g : State → Result} (hfg : f (setI w s) = mapNext (setI w) (g s)) :
    withTarget a (setI w s) f = mapNext (setI w) (withTarget a s g) := by
  cases hv : validTarget a <;> simp only [withTarget, hv]
  · rfl
  · exact hfg

theorem skipIf_setI (c : Bool) (w : Word) (s : State) : skipIf c (setI w s) = mapNext (setI w) (skipIf c s) := by
  cases c <;> rfl

theorem returnTo_setI (j : Nat) (w : Word) (s : State) :
    returnTo j (setI w s) = mapNext (setI w) (returnTo j s) := by
  simp only [returnTo, stackSlot_setI]
  cases stackSlot j s <;> rfl

theorem execRet_setI (w : Word) (s : State) : execRet (setI w s) = mapNext (setI w) (execRet s) := by
  simp only [execRet, setI_sp, setI_config, returnTo_setI]
  split
  · rfl
  · split
    · split <;> rfl
    · rfl

theorem execCall_setI (nnn : Addr) (w : Word) (s : State) :
    execCall nnn (setI w s) = mapNext (setI w) (execCall nnn s) := by
  refine withTarget_setI ?_
  by_cases hsp : s.sp.toNat ≥ 16
  · simp only [setI_sp, hsp, if_true]; rfl
  · simp only [setI_sp, hsp, if_false]; rfl

/-- Every instruction but `DRW` and `LD I` does the same whatever `I` holds, and leaves it (10_state.md R16). -/
theorem exec_setI {i : Instr} (hdrw : ∀ x y n, i ≠ .drw x y n) (hld : ∀ nnn, i ≠ .ldI nnn) (w : Word) (s : State) :
    exec i (setI w s) = mapNext (setI w) (exec i s) := by
  cases i with
  | drw x y n => exact absurd rfl (hdrw x y n)
  | ldI nnn => exact absurd rfl (hld nnn)
  | terminator | cls | sys | unrecognized => rfl
  | ret => exact execRet_setI w s
  | call nnn => exact execCall_setI nnn w s
  | jp | jpV0 =>
    simp only [exec, execJp, execJpV0]
    exact withTarget_setI rfl
  | seVxKk | sneVxKk | seVxVy | sneVxVy => exact skipIf_setI _ w s
  | ldVxKk | ldVxVy | addVxKk | addVxVy | orVxVy | andVxVy | xorVxVy | subVxVy | subnVxVy | shrVx | shlVx
  | rndVxKk =>
    simp only [exec, execLdVxKk, execLdVxVy, execAddVxKk, execAddVxVy, execOrVxVy, execAndVxVy, execXorVxVy,
      execSubVxVy, execSubnVxVy, execShrVx, execShlVx, execRndVxKk, rndWith]
    exact withDest_setI rfl

/-- `DRW`'s base address is all it takes from `I`, and that is the low 12 bits (44_display.md R106). -/
theorem spriteBase_setI {w : Word} (hw : w.toNat % 4096 = s.i.toNat % 4096) :
    spriteBase (setI w s) = spriteBase s := by
  apply BitVec.eq_of_toNat_eq
  simpa [spriteBase] using hw

theorem spriteReadPast_setI {w : Word} (hw : w.toNat % 4096 = s.i.toNat % 4096) (n : Nibble) :
    spriteReadPast n (setI w s) = spriteReadPast n s := by
  simp only [spriteReadPast, spriteBase_setI hw]

theorem spriteRows_setI {w : Word} (hw : w.toNat % 4096 = s.i.toNat % 4096) (n : Nibble) :
    spriteRows n (setI w s) = spriteRows n s := by
  simp only [spriteRows, spriteBase_setI hw, readByte_setI]

theorem applyBlit_setI (b : Blit) (w : Word) (s : State) : applyBlit b (setI w s) = setI w (applyBlit b s) := by
  cases hb : b.collide
  · rw [applyBlit_of_not_collide hb, applyBlit_of_not_collide hb]; rfl
  · rw [applyBlit_of_collide hb, applyBlit_of_collide hb]; rfl

/-- `DRW` does the same for two values of `I` with equal low 12 bits, and leaves `I` (10_state.md R16). -/
theorem execDrw_setI {w : Word} (hw : w.toNat % 4096 = s.i.toNat % 4096) (x y : Reg) (n : Nibble) :
    execDrw x y n (setI w s) = mapNext (setI w) (execDrw x y n s) := by
  simp only [execDrw, spriteReadPast_setI hw, spriteRows_setI hw, getV_setI, setI_config, setI_disp, applyBlit_setI]
  split
  · rfl
  · split <;> rfl

/-- The only effect that changes `I` is that of `LD I`. -/
theorem Effect.index {i : Instr} (h : Effect s i t) : t.i = s.i ∨ ∃ nnn, i = .ldI nnn ∧ t.i = zextAddr nnn := by
  cases h with
  | ldI nnn => exact .inr ⟨nnn, rfl, rfl⟩
  | drw => exact .inl (applyBlit_i _ _)
  | seVxKk | sneVxKk | seVxVy | sneVxVy => left; split <;> rfl
  | _ => exact .inl rfl

/-! ### The run state -/

/-- An instruction takes a fatal condition, is the terminator's halt, or leaves the run state and the fault reason. -/
theorem Effect.run_cases {i : Instr} (h : Effect s i t) :
    (∃ r, t = raiseFatal r s) ∨ t = setRun .halted (rewindPc s) ∨ (t.run = s.run ∧ t.fault = s.fault) := by
  cases h with
  | fatal _ r => exact .inl ⟨r, rfl⟩
  | terminator => exact .inr (.inl rfl)
  | drw => exact .inr (.inr ⟨applyBlit_run _ _, applyBlit_fault _ _⟩)
  | seVxKk | sneVxKk | seVxVy | sneVxVy => right; right; split <;> exact ⟨rfl, rfl⟩
  | _ => exact .inr (.inr ⟨rfl, rfl⟩)

/-- A step out of Idle or Running panics with a reason, halts, or goes on in Running. -/
theorem step_run_of_active (hr : s.run = .idle ∨ s.run = .running) (h : step s = .next t) :
    (t.run = .panicked ∧ t.fault ≠ none) ∨ t.run = .halted ∨ t.run = .running := by
  obtain ⟨hs, -⟩ | ⟨-, hc⟩ := step_next h
  · rcases hr with hr | hr <;> simp [hr] at hs
  obtain ⟨-, rfl⟩ | ⟨-, he⟩ := cycle_next hc
  · exact .inl ⟨rfl, nofun⟩
  obtain ⟨r, rfl⟩ | rfl | ⟨hrun, -⟩ := (exec_effect he).run_cases
  · exact .inl ⟨rfl, nofun⟩
  · exact .inr (.inl rfl)
  · exact .inr (.inr hrun)

/-- A step in Halted or Panicked keeps the run state. -/
theorem step_run_of_ended (hs : s.ended) (h : step s = .next t) : t.run = s.run := by
  rw [step_of_ended hs] at h
  cases h; rfl

/-- A step out of Idle or Running halts exactly when it executed the terminator (41_control.md R82). -/
theorem step_halts_iff (hr : s.run = .idle ∨ s.run = .running) (h : step s = .next t) :
    t.run = .halted ↔ s.atTerminator := by
  constructor
  · exact fun ht => (executesTerminator_of_step_halted hr h ht).2
  · intro hterm
    rw [step_of_executesTerminator ⟨hr, hterm⟩] at h
    cases h; rfl

theorem startRequest_run (s : State) :
    (startRequest s).run = if s.run = .idle ∨ s.run = .halted then .running else s.run := by
  obtain ⟨hr, he⟩ | ⟨hr, he⟩ := startRequest_cases s
  · rw [he, if_pos hr, setRun_run]
  · have hno : ¬ (s.run = .idle ∨ s.run = .halted) := by rcases hr with hr | hr <;> simp [hr]
    rw [he, if_neg hno]

theorem stopRequest_run (s : State) : (stopRequest s).run = if s.run = .running then .halted else s.run := by
  obtain ⟨hr, he⟩ | ⟨hr, he⟩ := stopRequest_cases s
  · rw [he, if_pos hr, setRun_run]
  · rw [he, if_neg hr]

/-- A reset gives the machine just constructed, but for the model's count of draws (70_reset_and_hazards.md R132). -/
theorem reinitialise_onlyChanges_draws (s : State) :
    OnlyChanges (· = .draws) (State.construct s.config) (reinitialise s) := by
  intro p hp
  cases p with
  | draws => exact absurd rfl hp
  | _ => rfl

/-- The requests that do not make a transition of the table keep the run state. -/
theorem serve_run_of_other {q : Request} (h : serve q s = .next t) (hstep : q ≠ .step) (hstart : q ≠ .start)
    (hstop : q ≠ .stop) (hreset : q ≠ .reset) : t.run = s.run := by
  cases q with
  | step => exact absurd rfl hstep
  | start => exact absurd rfl hstart
  | stop => exact absurd rfl hstop
  | reset => exact absurd rfl hreset
  | loadImage | inspect | decode => cases h; rfl
  | displayClear | displayFill | displayRandomize =>
    have ht : setDisp _ s = t := Host.Outcome.next.inj h
    rw [← ht, setDisp_run]

end Sys2Proof.Machine

namespace Sys2Proof.Claims

open Sys2Proof.Machine

/-- Settles O45: the writer by the inversion of exec, the readers by commuting each shared operation with a write
of `I`. -/
theorem indexRegisterUse : Obligations.IndexRegisterUse := by
  refine ⟨fun i s t h => (exec_effect h).index, fun i s w hdrw hld => exec_setI hdrw hld w s, fun nnn s w => rfl, ?_⟩
  exact fun x y n s w hw => execDrw_setI hw x y n

/-- Settles O47: the step by what a cycle can do to the run state, the other requests by their own equations. -/
theorem runStateTransitions : Obligations.RunStateTransitions := by
  intro q s t h
  refine ⟨?_, ?_, ?_, ?_, ?_, serve_run_of_other h⟩
  · rintro rfl hs
    exact step_run_of_ended hs h
  · rintro rfl hr
    refine ⟨?_, step_halts_iff hr h, ?_⟩
    · rcases step_run_of_active hr h with ⟨ht, -⟩ | ht | ht <;> rw [ht] <;> decide
    · intro hp
      rcases step_run_of_active hr h with ⟨-, hf⟩ | ht | ht
      · exact hf
      all_goals rw [ht] at hp; cases hp
  · rintro rfl; cases h; exact startRequest_run s
  · rintro rfl; cases h; exact stopRequest_run s
  · rintro rfl; cases h; exact ⟨rfl, reinitialise_onlyChanges_draws s⟩

end Sys2Proof.Claims
end

section
/-! PROOFS of the family 20_memory.md: who writes memory (R33). -/

namespace Sys2Proof

/-- Every word of the group `F` is unrecognized (30_encoding.md R58). -/
theorem decodeWord_of_hField_F {w : Word} (h : hField w = 0xF#4) : decodeWord w = .unrecognized w := by
  rw [decodeWord, h]; rfl

end Sys2Proof

namespace Sys2Proof.Machine

variable {s t : State}

/-- No effect of an instruction writes memory (20_memory.md R33). -/
theorem Effect.mem {i : Instr} (h : Effect s i t) : t.mem = s.mem := by
  cases h with
  | drw => exact applyBlit_mem _ _
  | seVxKk | sneVxKk | seVxVy | sneVxVy => split <;> rfl
  | _ => rfl

/-- No step writes memory: neither its fetch nor the instruction it executes. -/
theorem step_mem (h : step s = .next t) : t.mem = s.mem := by
  obtain ⟨-, rfl⟩ | ⟨-, hc⟩ := step_next h
  · rfl
  obtain ⟨-, rfl⟩ | ⟨-, he⟩ := cycle_next hc
  · rfl
  · exact (exec_effect he).mem

theorem startRequest_mem (s : State) : (startRequest s).mem = s.mem := by
  obtain ⟨-, he⟩ | ⟨-, he⟩ := startRequest_cases s <;> rw [he]
  exact setRun_mem _ _

theorem stopRequest_mem (s : State) : (stopRequest s).mem = s.mem := by
  obtain ⟨-, he⟩ | ⟨-, he⟩ := stopRequest_cases s <;> rw [he]
  exact setRun_mem _ _

/-- The requests other than reset and the image load leave memory (20_memory.md R33). -/
theorem serve_mem {q : Request} (h : serve q s = .next t) (hreset : q ≠ .reset)
    (hload : ∀ img, q ≠ .loadImage img) : t.mem = s.mem := by
  cases q with
  | reset => exact absurd rfl hreset
  | loadImage img => exact absurd rfl (hload img)
  | step => exact step_mem h
  | start => cases h; exact startRequest_mem s
  | stop => cases h; exact stopRequest_mem s
  | inspect | decode => cases h; rfl
  | displayClear | displayFill | displayRandomize =>
    have ht : setDisp _ s = t := Host.Outcome.next.inj h
    rw [← ht, setDisp_mem]

/-- States with the same memory read the same byte at every address. -/
theorem readByte_of_mem_eq (h : t.mem = s.mem) (a : Addr) : readByte a t = readByte a s :=
  congrArg (Memory.read · a) h

end Sys2Proof.Machine

namespace Sys2Proof.Claims

open Sys2Proof.Machine

/-- Settles O39: instructions by the inversion of exec, requests one by one; both words are of the group `F`. -/
theorem onlyLoadAndResetWriteMemory : Obligations.OnlyLoadAndResetWriteMemory := by
  refine ⟨fun i s t h => readByte_of_mem_eq (exec_effect h).mem,
    fun q s t h hreset hload => readByte_of_mem_eq (serve_mem h hreset hload), fun x => ⟨?_, ?_⟩⟩
  all_goals exact decodeWord_of_hField_F (hField_packXkk _ x _)

end Sys2Proof.Claims
end

section
/-! PROOFS of the family 40_step.md: the unrecognized words (R68), the writers of `pc` (R71), and the end of a run (R75). -/

namespace Sys2Proof.Machine

open Sys2Proof.Claims

variable {s t : State}

/-- Taking a fatal condition writes the run state and the reason, and keeps every other piece (60_exceptions.md R117). -/
theorem panics_raiseFatal (r : FatalReason) (s : State) : Panics r s (raiseFatal r s) := by
  refine ⟨rfl, rfl, fun p hp => ?_⟩
  cases p with
  | run => exact absurd (.inl rfl) hp
  | fault => exact absurd (.inr rfl) hp
  | _ => rfl

/-! ### The writers of `pc` -/

/-- An effect of an instruction whose rule does not write `pc` keeps it, a fatal condition included. -/
theorem Effect.pc_of_not_writesPc {i : Instr} (h : Effect s i t) (hw : writesPc i = false) : t.pc = s.pc := by
  cases h with
  | terminator | ret | jp | jpV0 | call | seVxKk | sneVxKk | seVxVy | sneVxVy => cases hw
  | drw => exact applyBlit_pc _ _
  | _ => rfl

/-- The four skips are one action on their condition (42_skip.md R84). -/
theorem exec_of_isSkip {i : Instr} (hi : isSkip i = true) (s : State) : exec i s = skipIf (skipCondition i s) s := by
  cases i with
  | seVxKk | sneVxKk | seVxVy | sneVxVy => rfl
  | _ => cases hi

theorem skipIf_pc {c : Bool} (h : skipIf c s = .next t) : t.pc = if c then s.pc + 2 else s.pc := by
  cases c <;> cases h <;> rfl

/-- `JP` and `CALL` panic with `pc` kept, or go to their target. -/
theorem Effect.pc_of_jump {i : Instr} {nnn : Addr} (h : Effect s i t) (hi : i = .jp nnn ∨ i = .call nnn) :
    (t.run = .panicked ∧ t.pc = s.pc) ∨ t.pc = zextAddr nnn := by
  obtain rfl | rfl := hi
  all_goals
    cases h with
    | fatal => exact .inl ⟨rfl, rfl⟩
    | dest _ _ _ hd | flagDest _ _ _ _ hd => cases hd
    | _ => exact .inr rfl

/-- `JP V0` panics with `pc` kept, or goes to its target. -/
theorem Effect.pc_of_jpV0 {nnn : Addr} (h : Effect s (.jpV0 nnn) t) :
    (t.run = .panicked ∧ t.pc = s.pc) ∨ t.pc = v0Target nnn s := by
  cases h with
  | fatal => exact .inl ⟨rfl, rfl⟩
  | jpV0 => exact .inr rfl
  | dest _ _ _ hd | flagDest _ _ _ _ hd => cases hd

/-- `RET` panics with `pc` kept, or goes to the content of a slot. -/
theorem Effect.pc_of_ret (h : Effect s .ret t) :
    (t.run = .panicked ∧ t.pc = s.pc) ∨ ∃ j, stackSlot j s = some t.pc := by
  cases h with
  | fatal => exact .inl ⟨rfl, rfl⟩
  | ret j w hslot => exact .inr ⟨j, hslot⟩
  | dest _ _ _ hd | flagDest _ _ _ _ hd => cases hd

/-! ### Runs -/

/-- A step out of Idle or Running that goes on in Running keeps the fault reason. -/
theorem step_fault_of_running (hr : s.run = .idle ∨ s.run = .running) (h : step s = .next t) (ht : t.run = .running) :
    t.fault = s.fault := by
  obtain ⟨hs, -⟩ | ⟨-, hc⟩ := step_next h
  · rcases hr with hr | hr <;> simp [hr] at hs
  obtain ⟨-, rfl⟩ | ⟨-, he⟩ := cycle_next hc
  · cases ht
  obtain ⟨r, rfl⟩ | rfl | ⟨-, hfault⟩ := (exec_effect he).run_cases
  · cases ht
  · cases ht
  · exact hfault

/-- A run out of Idle or Running that is Halted executed a terminator, and its end state is the one before that step, but
for the run state; the fault reason is the start's. -/
theorem terminator_of_runSteps_halted {n : Nat} (hr : s.run = .idle ∨ s.run = .running)
    (h : runSteps n s = .next t) (ht : t.run = .halted) :
    ∃ k u, k < n ∧ runSteps k s = .next u ∧ u.executesTerminator ∧ t = setRun .halted u ∧ u.fault = s.fault := by
  induction n generalizing s with
  | zero => cases h; rcases hr with hr | hr <;> rw [hr] at ht <;> cases ht
  | succ n ih =>
    obtain ⟨v, hv, hn⟩ := runSteps_succ_next h
    rcases step_run_of_active hr hv with ⟨hp, -⟩ | hh | hrun
    · rw [runSteps_of_ended (.inr hp)] at hn
      cases hn; rw [hp] at ht; cases ht
    · rw [runSteps_of_ended (.inl hh)] at hn
      cases hn
      have hterm := executesTerminator_of_step_halted hr hv ht
      rw [step_of_executesTerminator hterm] at hv
      cases hv
      exact ⟨0, s, n.succ_pos, rfl, hterm, rfl, rfl⟩
    · obtain ⟨k, u, hk, hu, hterm, htu, hfault⟩ := ih (.inr hrun) hn
      exact ⟨k + 1, u, Nat.succ_lt_succ hk, (runSteps_succ hv k).trans hu, hterm, htu,
        hfault.trans (step_fault_of_running hr hv hrun)⟩

/-- A run out of Idle or Running without a fault reason that ended Halted ended well (40_step.md R75). -/
theorem runEndedWell_of_halted {n : Nat} (hr : s.run = .idle ∨ s.run = .running) (hfault : s.fault = none)
    (h : RunEnded n s t) (ht : t.run = .halted) : RunEndedWell n s t := by
  have ⟨_, hn, _⟩ := h
  obtain ⟨k, u, hk, hu, hterm, rfl, huf⟩ := terminator_of_runSteps_halted hr hn ht
  exact ⟨h, ⟨ht, huf.trans hfault, hterm.2⟩, k, u, hk, hu, hterm, rfl⟩

/-- A step that changes nothing, made any number of times, changes nothing. -/
theorem runSteps_of_step_self (h : step s = .next s) (n : Nat) : runSteps n s = .next s := by
  induction n with
  | zero => rfl
  | succ n ih => rw [runSteps_succ h, ih]

/-- A running `JP` to its own address is a loop of one step (41_control.md R79). -/
theorem step_of_selfJump {nnn : Addr} (hr : s.run = .running) (hf : fetchable s.pc = true)
    (hi : fetchedInstr s = .jp nnn) (hpc : zextAddr nnn = s.pc) : step s = .next s := by
  have hv : validTarget s.pc = true := by
    obtain ⟨hlo, hhi⟩ := (fetchable_iff s.pc).1 hf
    simp only [validTarget, Bool.and_eq_true, decide_eq_true_eq]
    omega
  rw [step_of_running hr, cycle, if_pos hf, hi]
  simp only [exec, execJp, withTarget, hpc, hv, if_true, setPc, advancePc]

/-- The reset machine in Running, with `JP 0x200` at `0x200`. -/
def selfJumpState : State := placeWord (encode (.jp 0x200#12)) (setRun .running State.reset)

theorem fetchedInstr_selfJumpState : fetchedInstr selfJumpState = .jp 0x200#12 := by
  have hmem : Memory.wf (setRun .running State.reset).mem = true := reset_mem_wf
  exact (fetchedInstr_placeWord hmem _).trans (by decide)

theorem step_selfJumpState : step selfJumpState = .next selfJumpState :=
  step_of_selfJump rfl (fetchable_placedAt _) fetchedInstr_selfJumpState (by decide)

end Sys2Proof.Machine

namespace Sys2Proof.Claims

open Sys2Proof.Machine

/-- Settles O16: the word's one effect is the fatal condition. -/
theorem unrecognizedPanics : Obligations.UnrecognizedPanics :=
  fun _raw s => ⟨raiseFatal .invalidOpcode s, rfl, panics_raiseFatal .invalidOpcode s⟩

/-- Settles O42: the inversion of exec for the instructions that keep `pc` and for the transfers, the skip action for the
skips. -/
theorem pcWriters : Obligations.PcWriters := by
  intro i s t h
  have he := exec_effect h
  refine ⟨he.pc_of_not_writesPc, ?_, ?_, fun nnn => he.pc_of_jump, ?_, ?_⟩
  · intro hi
    exact skipIf_pc ((exec_of_isSkip hi s).symm.trans h)
  · rintro rfl; cases h; rfl
  · rintro nnn rfl; exact he.pc_of_jpV0
  · rintro rfl; exact he.pc_of_ret

/-- Settles O59: an ended state is a fixed point of the step; a run that ends Halted executed a terminator, by induction
on its steps; the run of any length that has not ended is that of a jump to itself. -/
theorem runsEndWellOrBadly : Obligations.RunsEndWellOrBadly := by
  refine ⟨?_, ?_, ?_, ?_⟩
  · rintro n m s t ⟨-, hn, hended⟩
    rw [runSteps_add m hn, runSteps_of_ended hended]
  · intro n s t hr hfault h
    exact ⟨⟨fun ⟨_, ⟨hh, _⟩, _⟩ => hh, runEndedWell_of_halted hr hfault h⟩, ⟨fun ⟨_, hp⟩ => hp, fun hp => ⟨h, hp⟩⟩⟩
  · rintro n s t hr hn hnoterm hnp (hh | hp)
    · obtain ⟨k, u, hk, hu, hterm, -⟩ := terminator_of_runSteps_halted hr hn hh
      exact hnoterm k u hk hu hterm
    · exact hnp hp
  · intro n
    refine ⟨selfJumpState, selfJumpState, rfl, runSteps_of_step_self step_selfJumpState n, ?_⟩
    rintro (h | h) <;> cases h

end Sys2Proof.Claims
end

section
/-! PROOFS of the family 41_control.md: `SYS` (R77) and `JP` (R79), each with the words that decode to it. -/

namespace Sys2Proof

/-! ### The words of the groups 0 and 1 -/

/-- Words of one group are equal only if their `nnn` fields are. -/
theorem packNnn_inj (h : Nibble) {a b : Addr} : packNnn h a = packNnn h b ↔ a = b := by
  refine ⟨fun e => ?_, congrArg (packNnn h)⟩
  simpa using congrArg nnnField e

/-- The group 0 is decoded by its whole word (30_encoding.md R50). -/
theorem decodeWord_packNnn_0 (nnn : Addr) : decodeWord (packNnn 0x0#4 nnn) = decodeZero (packNnn 0x0#4 nnn) := by
  rw [decodeWord, hField_packNnn]; rfl

/-- Apart from the three words that are not `SYS`, the group 0 decodes to `SYS` with its field (30_encoding.md R50). -/
theorem decodeZero_packNnn {nnn : Addr} (h0 : nnn ≠ 0x000#12) (hcls : nnn ≠ 0x0E0#12) (hret : nnn ≠ 0x0EE#12) :
    decodeZero (packNnn 0x0#4 nnn) = .sys nnn := by
  have hne {a : Addr} (h : nnn ≠ a) : packNnn 0x0#4 nnn ≠ packNnn 0x0#4 a := mt (packNnn_inj _).1 h
  have h0' : packNnn 0x0#4 nnn ≠ 0x0000#16 := hne h0
  have hcls' : packNnn 0x0#4 nnn ≠ 0x00E0#16 := hne hcls
  have hret' : packNnn 0x0#4 nnn ≠ 0x00EE#16 := hne hret
  rw [decodeZero, if_neg h0', if_neg hcls', if_neg hret', nnnField_packNnn]

/-- Every word of the group 1 is a `JP` (30_encoding.md R49). -/
theorem decodeWord_packNnn_1 (nnn : Addr) : decodeWord (packNnn 0x1#4 nnn) = .jp nnn := by
  rw [decodeWord, hField_packNnn]
  exact congrArg Instr.jp (nnnField_packNnn _ nnn)

/-- The word `1nnn`, its opcode nibble written as a mask. -/
theorem jpWord_eq_packNnn (nnn : Addr) : 0x1000#16 ||| nnn.setWidth 16 = packNnn 0x1#4 nnn := by
  have hmask : 0x1000#16 = packNnn 0x1#4 0x000#12 := by decide
  apply BitVec.eq_of_getLsbD_eq; intro k hk
  rw [hmask, BitVec.getLsbD_or, BitVec.getLsbD_setWidth, getLsbD_packNnn, getLsbD_packNnn]
  by_cases h : k < 12
  · simp [h, hk]
  · simp [h, BitVec.getLsbD_of_ge nnn k (by omega)]

end Sys2Proof

namespace Sys2Proof.Machine

open Sys2Proof.Claims

variable {s : State}

/-! ### The fetch -/

/-- The instruction fetched where a word stands is the one the word decodes to (40_step.md R66). -/
theorem fetchedInstr_of_wordAt {w : Word} (h : WordAt s w) : fetchedInstr s = decodeWord w := by
  obtain ⟨hfirst, hsecond⟩ := h
  exact (congrArg₂ decode hfirst hsecond).trans (decode_bytes w)

/-- A running machine whose `pc` is outside the window takes the fatal condition of the fetch (40_step.md R65). -/
theorem step_of_not_fetchable (hr : s.run = .running) (hf : ¬ fetchable s.pc = true) :
    step s = .next (raiseFatal .fetchOutOfRange s) := by
  rw [step_of_running hr, cycle, if_neg hf, fatal_eq]

/-! ### The checked target -/

theorem withTarget_of_valid {w : Word} (h : validTarget w = true) (s : State) (f : State → Result) :
    withTarget w s f = f s := if_pos h

theorem withTarget_of_not_valid {w : Word} (h : ¬ validTarget w = true) (s : State) (f : State → Result) :
    withTarget w s f = .next (raiseFatal .illegalTarget s) := if_neg h

/-- A 12-bit target is never too high, so its check is the lower bound (41_control.md R76). -/
theorem validTarget_zextAddr_iff (nnn : Addr) : validTarget (zextAddr nnn) = true ↔ 0x200 ≤ nnn.toNat := by
  have hnnn : (zextAddr nnn).toNat = nnn.toNat := BitVec.toNat_setWidth_of_le (by decide)
  simp only [validTarget, hnnn, Bool.and_eq_true, decide_eq_true_eq]
  omega

/-! ### `JP` -/

theorem onlyChanges_setPc (w : Word) (s : State) : OnlyChanges (· = .pc) s (setPc w s) := by
  intro p hp
  cases p with
  | pc => exact absurd rfl hp
  | _ => rfl

theorem exec_jp (nnn : Addr) (s : State) :
    exec (.jp nnn) s = withTarget (zextAddr nnn) s fun s => .next (setPc (zextAddr nnn) s) := rfl

theorem exec_jp_of_le {nnn : Addr} (h : 0x200 ≤ nnn.toNat) (s : State) :
    exec (.jp nnn) s = .next (setPc (zextAddr nnn) s) := by
  rw [exec_jp, withTarget_of_valid ((validTarget_zextAddr_iff nnn).2 h)]

theorem exec_jp_of_lt {nnn : Addr} (h : nnn.toNat < 0x200) (s : State) :
    exec (.jp nnn) s = .next (raiseFatal .illegalTarget s) := by
  rw [exec_jp, withTarget_of_not_valid (mt (validTarget_zextAddr_iff nnn).1 (Nat.not_le.2 h))]

/-- A running machine at the word of a `JP` to that word's own address stays as it is (41_control.md R79). -/
theorem step_of_jpWord_at_target {nnn : Addr} (hready : Ready s) (hr : s.run = .running)
    (hpc : s.pc = nnn.setWidth 16) (hw : WordAt s (0x1000#16 ||| nnn.setWidth 16)) : step s = .next s := by
  obtain ⟨-, hwindow⟩ := hready
  rw [jpWord_eq_packNnn] at hw
  have hi : fetchedInstr s = .jp nnn := (fetchedInstr_of_wordAt hw).trans (decodeWord_packNnn_1 nnn)
  exact step_of_selfJump hr ((fetchable_iff s.pc).2 hwindow) hi hpc.symm

end Sys2Proof.Machine

namespace Sys2Proof.Claims

open Sys2Proof.Machine

/-- Settles O8: the group 0 decodes by its whole word, and words of a group differ where their fields do. -/
theorem sysIsNoOp : Obligations.SysIsNoOp := by
  refine ⟨fun nnn s => rfl, fun nnn h0 hcls hret => ?_, ?_, ?_, ?_⟩
  · exact (decodeWord_packNnn_0 nnn).trans (decodeZero_packNnn h0 hcls hret)
  all_goals exact decodeWord_packNnn_0 _

/-- Settles O9: the two outcomes of the checked target; the loop by the word that stands at `pc`; after `JP 0xFFF` the
second byte of the next fetch would lie past memory. -/
theorem jpJumpsOrPanics : Obligations.JpJumpsOrPanics := by
  refine ⟨?_, ?_, fun nnn s => step_of_jpWord_at_target, ?_, decodeWord_packNnn_1⟩
  · intro nnn s h
    exact ⟨_, exec_jp_of_le h s, rfl, onlyChanges_setPc _ s⟩
  · intro nnn s h
    exact ⟨_, exec_jp_of_lt h s, panics_raiseFatal _ s⟩
  · intro s hr
    refine ⟨_, _, exec_jp_of_le (by decide) s, ?_, panics_raiseFatal _ _⟩
    exact step_of_not_fetchable hr (by rw [setPc_pc]; decide)

end Sys2Proof.Claims
end

section
/-! PROOFS of the family 42_skip.md: the skips on an immediate (R85, R86) and on two registers (R87, R88), each from the
one skip action (R84), with the words that decode to them. -/

namespace Sys2Proof

/-! ### The words of the groups 3, 4, 5 and 9 -/

theorem decodeWord_packXkk_3 (x : Reg) (kk : Byte) : decodeWord (packXkk 0x3#4 x kk) = .seVxKk x kk := by
  rw [decodeWord, hField_packXkk]
  exact congrArg₂ Instr.seVxKk (xField_packXkk _ x kk) (kkField_packXkk _ x kk)

theorem decodeWord_packXkk_4 (x : Reg) (kk : Byte) : decodeWord (packXkk 0x4#4 x kk) = .sneVxKk x kk := by
  rw [decodeWord, hField_packXkk]
  exact congrArg₂ Instr.sneVxKk (xField_packXkk _ x kk) (kkField_packXkk _ x kk)

/-- The group 5 has one last nibble that is an instruction (30_encoding.md R52). -/
theorem decodeWord_packXyn_5 (x y : Reg) (n : Nibble) :
    decodeWord (packXyn 0x5#4 x y n) = if n = 0#4 then .seVxVy x y else .unrecognized (packXyn 0x5#4 x y n) := by
  rw [decodeWord, hField_packXyn, nField_packXyn, xField_packXyn, yField_packXyn]; rfl

/-- The group 9 has one last nibble that is an instruction (30_encoding.md R52). -/
theorem decodeWord_packXyn_9 (x y : Reg) (n : Nibble) :
    decodeWord (packXyn 0x9#4 x y n) = if n = 0#4 then .sneVxVy x y else .unrecognized (packXyn 0x9#4 x y n) := by
  rw [decodeWord, hField_packXyn, nField_packXyn, xField_packXyn, yField_packXyn]; rfl

end Sys2Proof

namespace Sys2Proof.Machine

open Sys2Proof.Claims

variable {s t : State}

/-! ### The skip action -/

theorem onlyChanges_self (may : Part → Prop) (s : State) : OnlyChanges may s s := by
  intro p _
  cases p <;> rfl

/-- The skip action writes `pc` alone (42_skip.md R84). -/
theorem skipIf_onlyChanges_pc {c : Bool} (h : skipIf c s = .next t) : OnlyChanges (· = .pc) s t := by
  cases c with
  | false => cases h; exact onlyChanges_self _ s
  | true => cases h; exact onlyChanges_setPc _ s

/-- A skip answers a next state, with `pc` 2 further exactly on its condition and all else kept (42_skip.md R84). -/
theorem exec_skip {i : Instr} (hi : isSkip i = true) (s : State) :
    ∃ t, exec i s = .next t ∧ t.pc = (if skipCondition i s then s.pc + 2 else s.pc) ∧ OnlyChanges (· = .pc) s t := by
  rw [exec_of_isSkip hi]
  exact ⟨_, rfl, skipIf_pc rfl, skipIf_onlyChanges_pc rfl⟩

/-- A skip whose condition is the equality of two bytes. -/
theorem exec_skip_of_beq {i : Instr} {a b : Byte} (hi : isSkip i = true) (hc : skipCondition i s = (a == b)) :
    ∃ t, exec i s = .next t ∧ t.pc = (if a = b then s.pc + 2 else s.pc) ∧ OnlyChanges (· = .pc) s t := by
  simpa only [hc, beq_iff_eq] using exec_skip hi s

/-- A skip whose condition is the difference of two bytes. -/
theorem exec_skip_of_bne {i : Instr} {a b : Byte} (hi : isSkip i = true) (hc : skipCondition i s = (a != b)) :
    ∃ t, exec i s = .next t ∧ t.pc = (if a = b then s.pc else s.pc + 2) ∧ OnlyChanges (· = .pc) s t := by
  simpa only [hc, bne_iff_ne, ne_eq, ite_not] using exec_skip hi s

end Sys2Proof.Machine

namespace Sys2Proof.Claims

open Sys2Proof.Machine

/-- Settles O17: the skip action on the equality and on the difference of `V[x]` and `kk`, and the groups 3 and 4. -/
theorem skipOnImmediate : Obligations.SkipOnImmediate := fun x kk _s =>
  ⟨exec_skip_of_beq rfl rfl, exec_skip_of_bne rfl rfl, decodeWord_packXkk_3 x kk, decodeWord_packXkk_4 x kk⟩

/-- Settles O18: the skip action on the equality and on the difference of the registers; the groups 5 and 9 by their last
nibble. -/
theorem skipOnRegisters : Obligations.SkipOnRegisters := by
  refine fun x y s => ⟨exec_skip_of_beq rfl rfl, exec_skip_of_bne rfl rfl, ?_, ?_, fun n hn => ⟨?_, ?_⟩⟩
  · exact (decodeWord_packXyn_5 x y _).trans (if_pos rfl)
  · exact (decodeWord_packXyn_9 x y _).trans (if_pos rfl)
  · exact (decodeWord_packXyn_5 x y n).trans (if_neg hn)
  · exact (decodeWord_packXyn_9 x y n).trans (if_neg hn)

end Sys2Proof.Claims
end

section
/-! PROOFS of the family 43_load_alu.md: the loads (R89, R90, R100), `ADD Vx,Vy` (R92) and the shifts (R98, R99), each
with the words that decode to it. -/

namespace Sys2Proof

/-! ### The words of the groups 6, 8 and A -/

theorem decodeWord_packXkk_6 (x : Reg) (kk : Byte) : decodeWord (packXkk 0x6#4 x kk) = .ldVxKk x kk := by
  rw [decodeWord, hField_packXkk]
  exact congrArg₂ Instr.ldVxKk (xField_packXkk _ x kk) (kkField_packXkk _ x kk)

theorem decodeWord_packNnn_A (nnn : Addr) : decodeWord (packNnn 0xA#4 nnn) = .ldI nnn := by
  rw [decodeWord, hField_packNnn]
  exact congrArg Instr.ldI (nnnField_packNnn _ nnn)

/-- The group 8 decodes by its last nibble: a nibble that names the kind `f` gives `f` of the two registers
(30_encoding.md R53). -/
theorem decodeWord_packXyn_8 {n : Nibble} {f : Reg → Reg → Instr}
    (hn : ∀ w, nField w = n → decodeAlu w = f (xField w) (yField w)) (x y : Reg) :
    decodeWord (packXyn 0x8#4 x y n) = f x y := by
  have hgroup : decodeWord (packXyn 0x8#4 x y n) = decodeAlu (packXyn 0x8#4 x y n) := by
    rw [decodeWord, hField_packXyn]; rfl
  rw [hgroup, hn _ (nField_packXyn _ x y n), xField_packXyn, yField_packXyn]

variable {w : Word}

theorem decodeAlu_of_nField_0 (h : nField w = 0x0#4) : decodeAlu w = .ldVxVy (xField w) (yField w) := by
  rw [decodeAlu, h]; rfl

theorem decodeAlu_of_nField_4 (h : nField w = 0x4#4) : decodeAlu w = .addVxVy (xField w) (yField w) := by
  rw [decodeAlu, h]; rfl

theorem decodeAlu_of_nField_6 (h : nField w = 0x6#4) : decodeAlu w = .shrVx (xField w) (yField w) := by
  rw [decodeAlu, h]; rfl

theorem decodeAlu_of_nField_E (h : nField w = 0xE#4) : decodeAlu w = .shlVx (xField w) (yField w) := by
  rw [decodeAlu, h]; rfl

end Sys2Proof

namespace Sys2Proof.Machine

open Sys2Proof.Claims

variable {s : State}

/-! ### Results and flags as numbers -/

theorem toNat_wrappedSum (a b : Byte) : (wrappedSum a b).toNat = (a.toNat + b.toNat) % 256 := BitVec.toNat_add a b

theorem toNat_shiftedRight (a : Byte) : (shiftedRight a).toNat = a.toNat / 2 := by
  rw [shiftedRight, BitVec.toNat_ushiftRight, Nat.shiftRight_one]

theorem toNat_shiftedLeft (a : Byte) : (shiftedLeft a).toNat = a.toNat * 2 % 256 := by
  rw [shiftedLeft, BitVec.toNat_shiftLeft, Nat.shiftLeft_eq, pow_one]

/-- The bit that `SHR` shifts out is the remainder of the halving (43_load_alu.md R98). -/
theorem toNat_lowBit (a : Byte) : (lowBit a).toNat = a.toNat % 2 := by
  rw [lowBit, BitVec.getLsbD, Nat.testBit_zero]
  obtain h | h := Nat.mod_two_eq_zero_or_one a.toNat <;> rw [h] <;> rfl

/-- The bit that `SHL` shifts out is the overflow of the doubling (43_load_alu.md R99). -/
theorem toNat_highBit (a : Byte) : (highBit a).toNat = a.toNat / 128 := by
  rw [highBit, BitVec.getLsbD, Nat.toNat_testBit]
  omega

/-- A byte that a flag write left is the flag as a number. -/
theorem toNat_of_eq_flag {b : Byte} {f : Bool} (h : b = if f then 0x01#8 else 0x00#8) : b.toNat = f.toNat := by
  cases f <;> exact congrArg BitVec.toNat h

/-- The carry, as the byte `VF` holds, is the comparison of the sum with 255 (43_load_alu.md R92). -/
theorem flag_carryOut (a b : Byte) :
    (if carryOut a b then 0x01#8 else 0x00#8) = flagByte (255 < a.toNat + b.toNat) := by
  simp only [carryOut, flagByte, decide_eq_true_eq, gt_iff_lt]

/-! ### Instructions with an explicit destination -/

theorem onlyChanges_setV (x : Reg) (b : Byte) (s : State) : OnlyChanges (· = .reg x) s (setV x b s) := by
  intro p hp
  cases p with
  | reg r => exact getV_setV_of_ne s (fun hr => hp (congrArg Part.reg hr)) b
  | _ => rfl

theorem onlyChanges_setV_setFlag (x : Reg) (b : Byte) (f : Bool) (s : State) :
    OnlyChanges (fun p => p = .reg x ∨ p = .reg flagReg) s (setV x b (setFlag f s)) := by
  intro p hp
  cases p with
  | reg r =>
    have hx : r ≠ x := fun hr => hp (.inl (congrArg Part.reg hr))
    have hflag : r ≠ flagReg := fun hr => hp (.inr (congrArg Part.reg hr))
    exact (getV_setV_of_ne _ hx b).trans (getV_setFlag_of_ne s hflag f)
  | _ => rfl

/-- An instruction whose explicit destination is `VF` takes `ReservedRegister` (40_step.md R69). -/
theorem raises_reservedRegister {i : Instr} {x : Reg} (hi : explicitDest i = some x) (hx : x = flagReg) :
    Raises i .reservedRegister s := by
  obtain ⟨f, hexec, -⟩ := exec_of_explicitDest hi s
  subst hx
  exact ⟨_, hexec.trans (withDest_flagReg s f), panics_raiseFatal _ s⟩

/-- An instruction whose effect is one write of its destination: that register holds the value, all else is kept. -/
theorem exec_dest {i : Instr} {x : Reg} {value : State → Byte} (hx : x ≠ flagReg)
    (hexec : exec i s = withDest x s fun s => setV x (value s) s) :
    ∃ t, exec i s = .next t ∧ getV x t = value s ∧ OnlyChanges (· = .reg x) s t :=
  ⟨_, hexec.trans (withDest_of_ne hx s _), getV_setV_self s x _, onlyChanges_setV x _ s⟩

/-- An instruction that writes the flag and then its destination, both from the old state: each holds its value, as the
destination is not `VF`, and all else is kept. -/
theorem exec_flagDest {i : Instr} {x : Reg} {value : State → Byte} {flag : State → Bool} (hx : x ≠ flagReg)
    (hexec : exec i s = withDest x s fun s => setV x (value s) (setFlag (flag s) s)) :
    ∃ t, exec i s = .next t ∧ getV x t = value s ∧ getV flagReg t = (if flag s then 0x01#8 else 0x00#8)
      ∧ OnlyChanges (fun p => p = .reg x ∨ p = .reg flagReg) s t := by
  refine ⟨_, hexec.trans (withDest_of_ne hx s _), getV_setV_self _ x _, ?_, onlyChanges_setV_setFlag x _ _ s⟩
  exact (getV_setV_of_ne _ hx.symm _).trans (getV_flagReg_setFlag s _)

theorem exec_ldVxKk (x : Reg) (kk : Byte) (s : State) :
    exec (.ldVxKk x kk) s = withDest x s fun s => setV x kk s := rfl

theorem exec_ldVxVy (x y : Reg) (s : State) :
    exec (.ldVxVy x y) s = withDest x s fun s => setV x (getV y s) s := rfl

theorem exec_addVxVy (x y : Reg) (s : State) :
    exec (.addVxVy x y) s = withDest x s fun s =>
      setV x (wrappedSum (getV x s) (getV y s)) (setFlag (carryOut (getV x s) (getV y s)) s) := rfl

theorem exec_shrVx (x y : Reg) (s : State) :
    exec (.shrVx x y) s = withDest x s fun s => setV x (shiftedRight (getV x s)) (setFlag (lowBit (getV x s)) s) := rfl

theorem exec_shlVx (x y : Reg) (s : State) :
    exec (.shlVx x y) s = withDest x s fun s => setV x (shiftedLeft (getV x s)) (setFlag (highBit (getV x s)) s) := rfl

/-! ### `LD I,nnn` -/

theorem onlyChanges_setI (w : Word) (s : State) : OnlyChanges (· = .index) s (setI w s) := by
  intro p hp
  cases p with
  | index => exact absurd rfl hp
  | _ => rfl

end Sys2Proof.Machine

namespace Sys2Proof.Claims

open Sys2Proof.Machine

/-- Settles O20: one write of the destination, which holds the immediate; the group 6. -/
theorem loadImmediate : Obligations.LoadImmediate := fun x kk s =>
  ⟨fun hx => exec_dest hx (exec_ldVxKk x kk s), raises_reservedRegister rfl, decodeWord_packXkk_6 x kk⟩

/-- Settles O21: one write of the destination, which holds the source's old value; the group 8. -/
theorem loadRegister : Obligations.LoadRegister := fun x y s =>
  ⟨fun hx => exec_dest hx (exec_ldVxVy x y s), raises_reservedRegister rfl,
    decodeWord_packXyn_8 (fun _ => decodeAlu_of_nField_0) x y⟩

/-- Settles O23: the flag and the destination are both written from the old operands; the group 8. -/
theorem addRegister : Obligations.AddRegister := by
  refine fun x y s => ⟨fun hx => ?_, raises_reservedRegister rfl,
    decodeWord_packXyn_8 (fun _ => decodeAlu_of_nField_4) x y⟩
  obtain ⟨t, ht, hsum, hcarry, hframe⟩ := exec_flagDest hx (exec_addVxVy x y s)
  refine ⟨t, ht, ?_, ?_, hframe⟩
  · rw [hsum, toNat_wrappedSum]
  · exact hcarry.trans (flag_carryOut _ _)

/-- Settles O26: the flag and the destination are both written from the old `V[x]`, and `y` is not read; the group 8. -/
theorem shiftRight : Obligations.ShiftRight := by
  refine fun x y s => ⟨fun hx => ?_, raises_reservedRegister rfl, fun _ => rfl,
    decodeWord_packXyn_8 (fun _ => decodeAlu_of_nField_6) x y⟩
  obtain ⟨t, ht, hhalf, hbit, hframe⟩ := exec_flagDest hx (exec_shrVx x y s)
  refine ⟨t, ht, ?_, ?_, hframe⟩
  · rw [hhalf, toNat_shiftedRight]
  · exact (toNat_of_eq_flag hbit).trans (toNat_lowBit _)

/-- Settles O27: the flag and the destination are both written from the old `V[x]`, and `y` is not read; the group 8. -/
theorem shiftLeft : Obligations.ShiftLeft := by
  refine fun x y s => ⟨fun hx => ?_, raises_reservedRegister rfl, fun _ => rfl,
    decodeWord_packXyn_8 (fun _ => decodeAlu_of_nField_E) x y⟩
  obtain ⟨t, ht, hdouble, hbit, hframe⟩ := exec_flagDest hx (exec_shlVx x y s)
  refine ⟨t, ht, ?_, ?_, hframe⟩
  · rw [hdouble, toNat_shiftedLeft]
  · exact (toNat_of_eq_flag hbit).trans (toNat_highBit _)

/-- Settles O28: one write of `I`, with no check of the field; the group A. -/
theorem loadIndex : Obligations.LoadIndex := fun nnn s =>
  ⟨⟨_, rfl, BitVec.toNat_setWidth_of_le (by decide), onlyChanges_setI (zextAddr nnn) s⟩, decodeWord_packNnn_A nnn⟩

end Sys2Proof.Claims
end

section
/-! PROOFS of the family 44_display.md: `CLS` (R104), a write of the framebuffer that is all zeroes. -/

namespace Sys2Proof.Machine

open Sys2Proof.Claims

/-- A write of the framebuffer touches its cells alone. -/
theorem onlyChanges_setDisp (d : Screen) (s : State) : OnlyChanges IsCell s (setDisp d s) := by
  intro p hp
  cases p with
  | cell k => exact absurd ⟨k, rfl⟩ hp
  | _ => rfl

theorem pixel_setDisp (k : Nat) (d : Screen) (s : State) : pixel k (setDisp d s) = d.getLsbD k := rfl

theorem pixel_setDisp_blankScreen (k : Nat) (s : State) : pixel k (setDisp blankScreen s) = false := by
  rw [pixel_setDisp, blankScreen, BitVec.getLsbD_zero]

theorem exec_cls (s : State) : exec .cls s = .next (setDisp blankScreen s) := rfl

end Sys2Proof.Machine

namespace Sys2Proof.Claims

open Sys2Proof.Machine

/-- Settles O31: `CLS` and the host's clear are the one write of the blank framebuffer; the group 0 decodes by its whole
word. -/
theorem clearScreen : Obligations.ClearScreen :=
  ⟨fun s => ⟨_, exec_cls s, fun k _ => pixel_setDisp_blankScreen k s, onlyChanges_setDisp _ s, clearDisplay_eq s⟩,
    by decide⟩

end Sys2Proof.Claims
end

section
/-! PROOFS of the family 60_exceptions.md: what a fatal condition changes (R117), and how Panicked is left (R120). -/

namespace Sys2Proof.Machine

variable {s t : State}

/-! ### Entering Panicked -/

/-- The fetch's own reason is raised by no instruction (60_exceptions.md R116). -/
theorem ne_fetchOutOfRange_of_mayRaise {i : Instr} {r : FatalReason} (h : mayRaise i r = true) :
    r ≠ .fetchOutOfRange := by
  rintro rfl
  cases i <;> cases h

/-- An effect that enters Panicked is a fatal condition of the instruction's own. -/
theorem Effect.eq_raiseFatal_of_panicked {i : Instr} (h : Effect s i t) (hs : s.run ≠ .panicked)
    (ht : t.run = .panicked) : ∃ r, mayRaise i r = true ∧ t = raiseFatal r s := by
  cases h with
  | fatal _ r hr => exact ⟨r, hr, rfl⟩
  | terminator => cases ht
  | drw => exact absurd ((applyBlit_run _ _).symm.trans ht) hs
  | seVxKk | sneVxKk | seVxVy | sneVxVy => split at ht <;> exact absurd ht hs
  | _ => exact absurd ht hs

/-- A step that enters Panicked failed the fetch's check before `pc` advanced, or raised another reason after it. -/
theorem step_eq_raiseFatal_of_panicked (h : step s = .next t) (hs : s.run ≠ .panicked) (ht : t.run = .panicked) :
    t = raiseFatal .fetchOutOfRange s ∨ ∃ r, r ≠ .fetchOutOfRange ∧ t = raiseFatal r (advancePc s) := by
  obtain ⟨-, rfl⟩ | ⟨-, hc⟩ := step_next h
  · exact absurd ht hs
  obtain ⟨-, rfl⟩ | ⟨-, he⟩ := cycle_next hc
  · exact .inl rfl
  · obtain ⟨r, hr, rfl⟩ := (exec_effect he).eq_raiseFatal_of_panicked nofun ht
    exact .inr ⟨r, ne_fetchOutOfRange_of_mayRaise hr, rfl⟩

/-! ### Leaving Panicked -/

theorem startRequest_of_panicked (h : s.run = .panicked) : startRequest s = s := by
  rw [startRequest, h]

theorem stopRequest_of_panicked (h : s.run = .panicked) : stopRequest s = s := by
  rw [stopRequest, h]

/-- In Panicked every request but reset answers a state with the same run state and fault reason. -/
theorem serve_of_panicked {q : Request} (h : s.run = .panicked) (hreset : q ≠ .reset) :
    ∃ t, serve q s = .next t ∧ t.run = s.run ∧ t.fault = s.fault := by
  cases q with
  | reset => exact absurd rfl hreset
  | step => exact ⟨s, step_of_panicked h, rfl, rfl⟩
  | start => exact ⟨s, congrArg _ (startRequest_of_panicked h), rfl, rfl⟩
  | stop => exact ⟨s, congrArg _ (stopRequest_of_panicked h), rfl, rfl⟩
  | loadImage | inspect | decode => exact ⟨_, rfl, rfl, rfl⟩
  | displayClear | displayFill | displayRandomize => exact ⟨setDisp _ s, rfl, setDisp_run _ _, setDisp_fault _ _⟩

end Sys2Proof.Machine

namespace Sys2Proof.Claims

open Sys2Proof.Machine

/-- Settles O36: the reason is the fetch's, raised before `pc` advances, or an instruction's, raised after. -/
theorem fatalConditionIsPrecise : Obligations.FatalConditionIsPrecise := by
  intro s t h hs ht
  obtain rfl | ⟨r, hr, rfl⟩ := step_eq_raiseFatal_of_panicked h hs ht
  · exact ⟨.fetchOutOfRange, rfl⟩
  · exact ⟨r, by rw [if_neg hr]; rfl⟩

/-- Settles O38: the requests one by one, and reset by the frame of a reinitialised state. -/
theorem panickedIsLeftOnlyByReset : Obligations.PanickedIsLeftOnlyByReset := by
  intro s hs
  refine ⟨step_of_panicked hs, startRequest_of_panicked hs, fun q hq => ?_,
    _, rfl, rfl, rfl, reinitialise_onlyChanges_draws s⟩
  obtain ⟨t, ht, hrun, hfault⟩ := serve_of_panicked hs hq
  exact ⟨t, ht, hrun.trans hs, hfault⟩

end Sys2Proof.Claims
end

section
/-! PROOFS of the family 30_encoding.md: the decoder on the words of a row (§3, §4), and that decoding and encoding undo
each other. -/

namespace Sys2Proof

variable {w : Word}

/-! ### A word from its opcode nibble and its fields -/

theorem packNnn_nnnField {h : Nibble} (hh : (hField w).toNat = h.toNat) : packNnn h (nnnField w) = w := by
  obtain rfl := BitVec.eq_of_toNat_eq hh
  exact packNnn_fields w

theorem packXkk_xField_kkField {h : Nibble} (hh : (hField w).toNat = h.toNat) :
    packXkk h (xField w) (kkField w) = w := by
  obtain rfl := BitVec.eq_of_toNat_eq hh
  exact packXkk_fields w

theorem packXyn_xField_yField {h n : Nibble} (hh : (hField w).toNat = h.toNat) (hn : (nField w).toNat = n.toNat) :
    packXyn h (xField w) (yField w) n = w := by
  obtain rfl := BitVec.eq_of_toNat_eq hh
  obtain rfl := BitVec.eq_of_toNat_eq hn
  exact packXyn_fields w

/-! ### The unrecognized words -/

theorem unrecognizedWf_iff : unrecognizedWf w = true ↔
    (((hField w).toNat = 0x5 ∨ (hField w).toNat = 0x9) ∧ (nField w).toNat ≠ 0)
      ∨ ((hField w).toNat = 0x8 ∧ aluNibble (nField w).toNat = false)
      ∨ (hField w).toNat = 0xE ∨ (hField w).toNat = 0xF := by
  simp [unrecognizedWf, hField, nField, or_assoc]

theorem aluNibble_eq_false_iff {d : Nat} : aluNibble d = false ↔ 8 ≤ d ∧ d ≠ 0xE := by
  simp only [aluNibble, Bool.or_eq_false_iff, decide_eq_false_iff_not, beq_eq_false_iff_ne]
  omega

theorem decodeAlu_of_not_aluNibble (h : aluNibble (nField w).toNat = false) : decodeAlu w = .unrecognized w := by
  unfold decodeAlu
  split
  case h_10 => rfl
  all_goals
    next hn => rw [hn] at h; cases h

/-- A word of no row decodes to itself, unrecognized (30_encoding.md R58). -/
theorem decodeWord_of_unrecognizedWf (h : unrecognizedWf w = true) : decodeWord w = .unrecognized w := by
  obtain ⟨hh, hn⟩ | ⟨hh, hn⟩ | hh := unrecognizedWf_iff.1 h
  · have hn' : nField w ≠ 0#4 := fun e => hn (congrArg BitVec.toNat e)
    obtain hh | hh := hh <;> rw [decodeWord, hh] <;> exact if_neg hn'
  · rw [decodeWord, hh]
    exact decodeAlu_of_not_aluNibble hn
  · obtain hh | hh := hh <;> rw [decodeWord, hh] <;> rfl

/-! ### Decoding an encoded instruction -/

/-- The word of every well-formed instruction decodes to it: the rows of 30_encoding.md R49 have distinct words. -/
theorem decodeWord_encode {i : Instr} (h : i.wf = true) : decodeWord (encode i) = i := by
  cases i with
  | terminator | cls | ret => decide
  | sys nnn =>
    simp only [Instr.wf, sysWf, Bool.and_eq_true, bne_iff_ne] at h
    obtain ⟨⟨h0, hcls⟩, hret⟩ := h
    exact (decodeWord_packNnn_0 nnn).trans (decodeZero_packNnn h0 hcls hret)
  | unrecognized raw => exact decodeWord_of_unrecognizedWf h
  | jp | call | ldI | jpV0 => simp [encode, decodeWord]
  | seVxKk | sneVxKk | ldVxKk | addVxKk | rndVxKk => simp [encode, decodeWord]
  | seVxVy | sneVxVy | drw => simp [encode, decodeWord]
  | ldVxVy | addVxVy | orVxVy | andVxVy | xorVxVy | subVxVy | subnVxVy | shrVx | shlVx =>
    simp [encode, decodeWord, decodeAlu]

/-- The two bytes of a word, whatever follows them, decode as the word. -/
theorem decodeBytes_encodeBytes (i : Instr) (rest : List Byte) :
    decodeBytes (encodeBytes i ++ rest) = .ok (decodeWord (encode i), rest) :=
  congrArg (fun j => Except.ok (j, rest)) (decode_bytes (encode i))

/-! ### Encoding a decoded word -/

/-- A word of the group 0 that is none of the three full words has the field of a `SYS` (30_encoding.md R50). -/
theorem sysWf_nnnField (hh : (hField w).toNat = 0x0) (h0 : w ≠ 0x0000#16) (hcls : w ≠ 0x00E0#16)
    (hret : w ≠ 0x00EE#16) : sysWf (nnnField w) = true := by
  have hne (a : Addr) (ha : w ≠ packNnn 0x0#4 a) : nnnField w ≠ a := by
    rintro rfl
    exact ha (packNnn_nnnField hh).symm
  simp only [sysWf, Bool.and_eq_true, bne_iff_ne]
  exact ⟨⟨hne _ h0, hne _ hcls⟩, hne _ hret⟩

theorem decodeZero_wf_and_encode (hh : (hField w).toNat = 0x0) :
    (decodeZero w).wf = true ∧ encode (decodeZero w) = w := by
  unfold decodeZero
  split_ifs with h0 hcls hret
  · exact ⟨rfl, h0.symm⟩
  · exact ⟨rfl, hcls.symm⟩
  · exact ⟨rfl, hret.symm⟩
  · exact ⟨sysWf_nnnField hh h0 hcls hret, packNnn_nnnField hh⟩

theorem decodeAlu_wf_and_encode (hh : (hField w).toNat = 0x8) :
    (decodeAlu w).wf = true ∧ encode (decodeAlu w) = w := by
  unfold decodeAlu
  split
  case h_10 =>
    refine ⟨unrecognizedWf_iff.2 (.inr (.inl ⟨hh, aluNibble_eq_false_iff.2 ?_⟩)), rfl⟩
    simp only [imp_false] at *
    omega
  all_goals
    next hn => exact ⟨rfl, packXyn_xField_yField hh hn⟩

/-- Every word decodes to a well-formed instruction that encodes to it, group by group (30_encoding.md R55). -/
theorem decodeWord_wf_and_encode (w : Word) : (decodeWord w).wf = true ∧ encode (decodeWord w) = w := by
  have hunrec (hh : (hField w).toNat = 0x5 ∨ (hField w).toNat = 0x9) (hn : nField w ≠ 0#4) :
      unrecognizedWf w = true :=
    unrecognizedWf_iff.2 (.inl ⟨hh, fun e => hn (BitVec.eq_of_toNat_eq e)⟩)
  unfold decodeWord
  split
  case h_1 hh => exact decodeZero_wf_and_encode hh
  case h_2 hh | h_3 hh | h_11 hh | h_12 hh => exact ⟨rfl, packNnn_nnnField hh⟩
  case h_4 hh | h_5 hh | h_7 hh | h_8 hh | h_13 hh => exact ⟨rfl, packXkk_xField_kkField hh⟩
  case h_6 hh =>
    split
    · next hn => exact ⟨rfl, packXyn_xField_yField hh (congrArg BitVec.toNat hn)⟩
    · next hn => exact ⟨hunrec (.inl hh) hn, rfl⟩
  case h_10 hh =>
    split
    · next hn => exact ⟨rfl, packXyn_xField_yField hh (congrArg BitVec.toNat hn)⟩
    · next hn => exact ⟨hunrec (.inr hh) hn, rfl⟩
  case h_9 hh => exact decodeAlu_wf_and_encode hh
  case h_14 hh => exact ⟨rfl, packXyn_xField_yField hh rfl⟩
  case h_15 =>
    have hlt : (hField w).toNat < 16 := (hField w).isLt
    simp only [imp_false] at *
    exact ⟨unrecognizedWf_iff.2 (.inr (.inr (by omega))), rfl⟩

/-! ### The mask and match columns -/

/-- A mask with all bits of the opcode nibble keeps it. -/
theorem hField_of_and {mask m : Word} (hmask : hField mask = BitVec.allOnes 4) (h : w &&& mask = m) :
    (hField w).toNat = (hField m).toNat := by
  have hand : hField (w &&& mask) = hField w &&& hField mask := BitVec.extractLsb'_and
  rw [← h, hand, hmask, BitVec.and_allOnes]

/-- A mask with all bits of the low nibble keeps it. -/
theorem nField_of_and {mask m : Word} (hmask : nField mask = BitVec.allOnes 4) (h : w &&& mask = m) :
    (nField w).toNat = (nField m).toNat := by
  have hand : nField (w &&& mask) = nField w &&& nField mask := BitVec.extractLsb'_and
  rw [← h, hand, hmask, BitVec.and_allOnes]

theorem hField_of_and_F000 {m : Word} (h : w &&& 0xF000#16 = m) : (hField w).toNat = (hField m).toNat :=
  hField_of_and (by decide) h

theorem hField_of_and_F00F {m : Word} (h : w &&& 0xF00F#16 = m) : (hField w).toNat = (hField m).toNat :=
  hField_of_and (by decide) h

theorem nField_of_and_F00F {m : Word} (h : w &&& 0xF00F#16 = m) : (nField w).toNat = (nField m).toNat :=
  nField_of_and (by decide) h

/-- A word of a row `hnnn` is packed from the opcode nibble of its match. -/
theorem packNnn_of_and_F000 {m : Word} (h : w &&& 0xF000#16 = m) : packNnn (hField m) (nnnField w) = w :=
  packNnn_nnnField (hField_of_and_F000 h)

/-- A word of a row `hxkk` is packed from the opcode nibble of its match. -/
theorem packXkk_of_and_F000 {m : Word} (h : w &&& 0xF000#16 = m) : packXkk (hField m) (xField w) (kkField w) = w :=
  packXkk_xField_kkField (hField_of_and_F000 h)

/-- A word of the row `hxyn` is packed from the opcode nibble of its match. -/
theorem packXyn_of_and_F000 {m : Word} (h : w &&& 0xF000#16 = m) :
    packXyn (hField m) (xField w) (yField w) (nField w) = w :=
  packXyn_xField_yField (hField_of_and_F000 h) rfl

/-- A word of a row `hxyd` is packed from the two nibbles of its match. -/
theorem packXyn_of_and_F00F {m : Word} (h : w &&& 0xF00F#16 = m) :
    packXyn (hField m) (xField w) (yField w) (nField m) = w :=
  packXyn_xField_yField (hField_of_and_F00F h) (nField_of_and_F00F h)

/-- A word decodes to the one well-formed instruction that encodes to it. -/
theorem decodeWord_eq_of_encode_eq {i : Instr} (hi : i.wf = true) (hw : encode i = w) : decodeWord w = i :=
  hw ▸ decodeWord_encode hi

end Sys2Proof

namespace Sys2Proof.Claims

/-- Settles O1: each word by evaluation of the decoder. -/
theorem specWordsDecode : Obligations.SpecWordsDecode := by
  unfold Obligations.SpecWordsDecode
  decide

/-- Settles O2: constructor by constructor, on the word; the two bytes decode as the word. -/
theorem decodeOfEncode : Obligations.DecodeOfEncode := by
  intro i h
  refine ⟨decodeWord_encode h, fun rest => ?_⟩
  rw [decodeBytes_encodeBytes, decodeWord_encode h]

/-- Settles O3: group by group. -/
theorem everyWordDecodesAndIsRecovered : Obligations.EveryWordDecodesAndIsRecovered := decodeWord_wf_and_encode

/-- Settles O4: a word that matches a row is the encoding of the row's instruction with the word's own fields, and the
words of no row are those that the well-formedness of `UNRECOGNIZED` names. -/
theorem decodeFollowsMaskAndMatch : Obligations.DecodeFollowsMaskAndMatch := by
  intro w x y n kk nnn
  have nnnRow {i : Instr} {m : Word} (hi : i.wf = true) (he : encode i = packNnn (hField m) nnn)
      (hm : w &&& 0xF000#16 = m) : decodeWord w = i :=
    decodeWord_eq_of_encode_eq hi (he.trans (packNnn_of_and_F000 hm))
  have xkkRow {i : Instr} {m : Word} (hi : i.wf = true) (he : encode i = packXkk (hField m) x kk)
      (hm : w &&& 0xF000#16 = m) : decodeWord w = i :=
    decodeWord_eq_of_encode_eq hi (he.trans (packXkk_of_and_F000 hm))
  have xyRow {i : Instr} {m : Word} (hi : i.wf = true) (he : encode i = packXyn (hField m) x y (nField m))
      (hm : w &&& 0xF00F#16 = m) : decodeWord w = i :=
    decodeWord_eq_of_encode_eq hi (he.trans (packXyn_of_and_F00F hm))
  refine ⟨?_, ?_, ?_, ?_, nnnRow rfl rfl, nnnRow rfl rfl, xkkRow rfl rfl, xkkRow rfl rfl, xyRow rfl rfl, xyRow rfl rfl,
    xkkRow rfl rfl, xyRow rfl rfl, xkkRow rfl rfl, xyRow rfl rfl, xyRow rfl rfl, xyRow rfl rfl, xyRow rfl rfl,
    xyRow rfl rfl, xyRow rfl rfl, xyRow rfl rfl, xyRow rfl rfl, nnnRow rfl rfl, nnnRow rfl rfl, xkkRow rfl rfl, ?_, ?_,
    ?_, ?_⟩
  · rintro rfl; rfl
  · rintro rfl; rfl
  · rintro rfl; rfl
  · intro hm h0 hcls hret
    have hh := hField_of_and_F000 hm
    exact nnnRow (m := 0x0000#16) (sysWf_nnnField hh h0 hcls hret) rfl hm
  · intro hm
    have hw := packXyn_of_and_F000 hm
    exact decodeWord_eq_of_encode_eq rfl hw
  · intro hm hn
    have hh : (hField w).toNat = 0x5 ∨ (hField w).toNat = 0x9 :=
      hm.imp (fun hm => (hField_of_and_F000 hm :)) fun hm => (hField_of_and_F000 hm :)
    exact decodeWord_of_unrecognizedWf (unrecognizedWf_iff.2 (.inl ⟨hh, fun e => hn (BitVec.eq_of_toNat_eq e)⟩))
  · intro hm hlo hE
    have hh := hField_of_and_F000 hm
    have hne : (nField w).toNat ≠ 0xE := fun e => hE (BitVec.eq_of_toNat_eq e)
    have hn : aluNibble (nField w).toNat = false := aluNibble_eq_false_iff.2 ⟨hlo, hne⟩
    exact decodeWord_of_unrecognizedWf (unrecognizedWf_iff.2 (.inr (.inl ⟨hh, hn⟩)))
  · intro hm
    have hh : (hField w).toNat = 0xE ∨ (hField w).toNat = 0xF :=
      hm.imp (fun hm => (hField_of_and_F000 hm :)) fun hm => (hField_of_and_F000 hm :)
    exact decodeWord_of_unrecognizedWf (unrecognizedWf_iff.2 (.inr (.inr hh)))

end Sys2Proof.Claims
end

section
/-! PROOFS of the family 40_step.md: the step request in each run state (R63 to R65), and the reserved-register check
(R69). -/

namespace Sys2Proof.Machine

open Sys2Proof.Claims

variable {s t : State}

/-! ### The step request -/

/-- In Idle and in Running a step request is one cycle in Running (40_step.md R63). -/
theorem step_of_active (hr : s.run = .idle ∨ s.run = .running) : step s = cycle (setRun .running s) := by
  obtain hr | hr := hr
  · exact step_of_idle hr
  · have hs : setRun .running s = s := by rw [setRun, ← hr]
    rw [step_of_running hr, hs]

/-- A machine that can fetch runs the fetched instruction, with `pc` advanced (40_step.md R65). -/
theorem step_of_ready (h : Ready s) : step s = exec (fetchedInstr s) (advancePc (setRun .running s)) := by
  obtain ⟨hr, hwindow⟩ := h
  rw [step_of_active hr]
  exact if_pos ((fetchable_iff s.pc).2 hwindow)

/-- A machine whose fetch would leave the window takes the fetch's fatal condition (40_step.md R65). -/
theorem step_of_active_not_fetchable (hr : s.run = .idle ∨ s.run = .running) (hf : ¬ fetchable s.pc = true) :
    step s = .next (raiseFatal .fetchOutOfRange s) := by
  rw [step_of_active hr]
  exact if_neg hf

/-! ### The reserved register -/

/-- An effect takes a reason of the instruction's row, or keeps the fault reason. -/
theorem Effect.fault_cases {i : Instr} (h : Effect s i t) :
    (∃ r, mayRaise i r = true ∧ t.fault = some r) ∨ t.fault = s.fault := by
  cases h with
  | fatal _ r hr => exact .inl ⟨r, hr, rfl⟩
  | drw => exact .inr (applyBlit_fault _ _)
  | seVxKk | sneVxKk | seVxVy | sneVxVy => right; split <;> rfl
  | _ => exact .inr rfl

/-- Only an explicit destination can be the reserved register (60_exceptions.md R116). -/
theorem mayRaise_reservedRegister (i : Instr) : mayRaise i .reservedRegister = (explicitDest i).isSome := by
  cases i <;> rfl

/-- An instruction whose explicit destination is not `VF`, or that has none, does not take `ReservedRegister`. -/
theorem fault_ne_reservedRegister {i : Instr} (hd : explicitDest i ≠ some flagReg)
    (hs : s.fault ≠ some .reservedRegister) (h : exec i s = .next t) : t.fault ≠ some .reservedRegister := by
  cases hi : explicitDest i with
  | some x =>
    obtain ⟨f, hexec, hkeep⟩ := exec_of_explicitDest hi s
    have hx : x ≠ flagReg := fun e => hd (hi.trans (congrArg some e))
    rw [hexec, withDest_of_ne hx] at h
    cases h
    rwa [(hkeep s).2]
  | none =>
    obtain ⟨r, hr, ht⟩ | ht := (exec_effect h).fault_cases
    · intro hres
      obtain rfl : r = .reservedRegister := Option.some.inj (ht.symm.trans hres)
      rw [mayRaise_reservedRegister, hi] at hr
      cases hr
    · rwa [ht]

end Sys2Proof.Machine

namespace Sys2Proof.Claims

open Sys2Proof.Machine

/-- Settles O5: the fetch succeeds, and the fetched instruction is that of the two bytes at `pc`. -/
theorem stepRunsTheDecodedInstruction : Obligations.StepRunsTheDecodedInstruction :=
  fun _s h => step_of_ready h

/-- Settles O6: the window check fails, and its fatal condition changes the run state and the reason. -/
theorem fetchOutsideWindowPanics : Obligations.FetchOutsideWindowPanics := by
  intro s hr hpc
  have hf : ¬ fetchable s.pc = true := by rw [fetchable_iff]; omega
  exact ⟨_, step_of_active_not_fetchable hr hf, panics_raiseFatal _ s⟩

/-- Settles O7: an ended state is a fixed point of the step. -/
theorem stoppedStepIsNoOp : Obligations.StoppedStepIsNoOp := fun _s h => step_of_ended h

/-- Settles O30: the destination's check both ways, and the rows of the fatal reasons for the other instructions. -/
theorem reservedRegisterCheck : Obligations.ReservedRegisterCheck := fun _i _s =>
  ⟨fun hi => raises_reservedRegister hi rfl, fun hd hs _t h => fault_ne_reservedRegister hd hs h⟩

end Sys2Proof.Claims
end

section
/-! PROOFS of the family 41_control.md: `JP V0` (R81), `CALL` (R80), `RET` (R78), the two in a row, and the terminator
(R82). -/

namespace Sys2Proof.Machine

open Sys2Proof.Claims

variable {s : State}

/-! ### `JP V0` -/

theorem toNat_zextAddr (nnn : Addr) : (zextAddr nnn).toNat = nnn.toNat := BitVec.toNat_setWidth_of_le (by decide)

/-- The sum of `nnn` and `V[0]` fits in 16 bits (41_control.md R81). -/
theorem toNat_v0Target (nnn : Addr) (s : State) : (v0Target nnn s).toNat = nnn.toNat + (getV 0#4 s).toNat := by
  have hv : ((getV 0#4 s).setWidth 16).toNat = (getV 0#4 s).toNat := BitVec.toNat_setWidth_of_le (by decide)
  rw [v0Target, BitVec.toNat_add, toNat_zextAddr, hv]
  exact Nat.mod_eq_of_lt (by omega)

theorem validTarget_iff (w : Word) : validTarget w = true ↔ 0x200 ≤ w.toNat ∧ w.toNat ≤ 0xFFF := by
  simp only [validTarget, Bool.and_eq_true, decide_eq_true_eq]

theorem exec_jpV0 (nnn : Addr) (s : State) :
    exec (.jpV0 nnn) s = withTarget (v0Target nnn s) s fun s => .next (setPc (v0Target nnn s) s) := rfl

/-! ### `CALL` -/

theorem exec_call (nnn : Addr) (s : State) :
    exec (.call nnn) s = withTarget (zextAddr nnn) s fun s =>
      if s.sp.toNat ≥ 16 then fatal .stackExceeded s else .next (setPc (zextAddr nnn) (pushReturn s.pc s)) := rfl

theorem exec_call_of_lt_target {nnn : Addr} (h : nnn.toNat < 0x200) (s : State) :
    exec (.call nnn) s = .next (raiseFatal .illegalTarget s) := by
  rw [exec_call, withTarget_of_not_valid (mt (validTarget_zextAddr_iff nnn).1 (Nat.not_le.2 h))]

theorem exec_call_of_stack_full {nnn : Addr} (h : 0x200 ≤ nnn.toNat) (hsp : 16 ≤ s.sp.toNat) :
    exec (.call nnn) s = .next (raiseFatal .stackExceeded s) := by
  rw [exec_call, withTarget_of_valid ((validTarget_zextAddr_iff nnn).2 h)]
  exact if_pos hsp

theorem exec_call_of_le_target {nnn : Addr} (h : 0x200 ≤ nnn.toNat) (hsp : s.sp.toNat < 16) :
    exec (.call nnn) s = .next (setPc (zextAddr nnn) (pushReturn s.pc s)) := by
  rw [exec_call, withTarget_of_valid ((validTarget_zextAddr_iff nnn).2 h)]
  exact if_neg (Nat.not_le.2 hsp)

/-- A push below 16 adds 1 to `SP` without wrap. -/
theorem toNat_pushReturn_sp (w : Word) (hsp : s.sp.toNat < 16) : (pushReturn w s).sp.toNat = s.sp.toNat + 1 := by
  rw [pushReturn_sp]
  bv_omega

/-- The jump of a `CALL` writes `pc`, `SP` and the slot `SP` (41_control.md R80). -/
theorem onlyChanges_setPc_pushReturn (w u : Word) (s : State) :
    OnlyChanges (fun p => p = .pc ∨ p = .sp ∨ p = .slot s.sp.toNat) s (setPc w (pushReturn u s)) := by
  intro p hp
  cases p with
  | pc => exact absurd (.inl rfl) hp
  | sp => exact absurd (.inr (.inl rfl)) hp
  | slot j => exact stackSlot_pushReturn_of_ne s (fun hj => hp (.inr (.inr (congrArg Part.slot hj)))) u
  | _ => rfl

/-- A `CALL` with a good target and a free slot pushes the post-fetch `pc` and jumps (41_control.md R80). -/
theorem exec_call_pushes {nnn : Addr} (h : 0x200 ≤ nnn.toNat) (hsp : s.sp.toNat < 16) :
    ∃ t, exec (.call nnn) s = .next t ∧ stackSlot s.sp.toNat t = some s.pc ∧ t.sp.toNat = s.sp.toNat + 1
      ∧ t.pc = nnn.setWidth 16 ∧ OnlyChanges (fun p => p = .pc ∨ p = .sp ∨ p = .slot s.sp.toNat) s t :=
  ⟨_, exec_call_of_le_target h hsp, stackSlot_pushReturn_self s s.pc hsp, toNat_pushReturn_sp s.pc hsp, rfl,
    onlyChanges_setPc_pushReturn _ _ s⟩

/-! ### `RET` -/

theorem returnTo_of_lt {j : Nat} (h : j < 16) (s : State) : returnTo j s = .next (popReturn s.stack[j] s) := by
  rw [returnTo, stackSlot_of_lt s h]

theorem returnTo_of_ge {j : Nat} (h : 16 ≤ j) (s : State) : returnTo j s = .fault .noSuchStackSlot := by
  rw [returnTo, stackSlot_of_ge s h]

theorem exec_ret_of_empty (hsp : s.sp = 0#8) : exec .ret s = .next (raiseFatal .emptyCallStack s) :=
  if_pos hsp

/-- Under reference `RET` reads the slot `SP`, which must be one that exists (41_control.md R78). -/
theorem exec_ret_of_reference (hret : s.config.retIndex = .reference) (hsp : s.sp ≠ 0#8) :
    exec .ret s = if s.sp = 16#8 then .next (raiseFatal .stackSlotOutOfRange s) else returnTo s.sp.toNat s := by
  simp only [exec, execRet, hsp, hret, if_false, fatal_eq]

/-- Under textbook `RET` reads the slot `SP - 1` (41_control.md R78). -/
theorem exec_ret_of_textbook (hret : s.config.retIndex = .textbook) (hsp : s.sp ≠ 0#8) :
    exec .ret s = returnTo (s.sp.toNat - 1) s := by
  simp only [exec, execRet, hsp, hret, if_false]

/-- Above 16 no slot that either setting names exists (log entry 12). -/
theorem exec_ret_of_gt (h : 16 < s.sp.toNat) : exec .ret s = .fault .noSuchStackSlot := by
  have h0 : s.sp ≠ 0#8 := ne_of_apply_ne BitVec.toNat (Nat.ne_of_gt (Nat.lt_trans (by decide) h))
  have h16 : s.sp ≠ 16#8 := ne_of_apply_ne BitVec.toNat (Nat.ne_of_gt h)
  cases hret : s.config.retIndex with
  | reference => rw [exec_ret_of_reference hret h0, if_neg h16, returnTo_of_ge (Nat.le_of_lt h)]
  | textbook => rw [exec_ret_of_textbook hret h0, returnTo_of_ge (by omega)]

/-- A pop above 0 takes 1 from `SP` without wrap. -/
theorem toNat_popReturn_sp (w : Word) (hsp : 0 < s.sp.toNat) : (popReturn w s).sp.toNat + 1 = s.sp.toNat := by
  rw [popReturn_sp]
  bv_omega

theorem onlyChanges_popReturn (w : Word) (s : State) : OnlyChanges (fun p => p = .pc ∨ p = .sp) s (popReturn w s) := by
  intro p hp
  cases p with
  | pc => exact absurd (.inl rfl) hp
  | sp => exact absurd (.inr rfl) hp
  | _ => rfl

/-- A `RET` that pops the slot `j` goes to its content, with `SP` 1 lower and all else kept. -/
theorem exec_ret_pops {j : Nat} (hj : j < 16) (hpos : 0 < s.sp.toNat)
    (hexec : exec .ret s = .next (popReturn s.stack[j] s)) :
    ∃ t w, exec .ret s = .next t ∧ stackSlot j s = some w ∧ t.pc = w ∧ t.sp.toNat + 1 = s.sp.toNat
      ∧ OnlyChanges (fun p => p = .pc ∨ p = .sp) s t :=
  ⟨_, _, hexec, stackSlot_of_lt s hj, rfl, toNat_popReturn_sp _ hpos, onlyChanges_popReturn _ s⟩

theorem exec_ret_pops_of_reference (hret : s.config.retIndex = .reference) (hpos : 0 < s.sp.toNat)
    (hlt : s.sp.toNat < 16) :
    ∃ t w, exec .ret s = .next t ∧ stackSlot s.sp.toNat s = some w ∧ t.pc = w ∧ t.sp.toNat + 1 = s.sp.toNat
      ∧ OnlyChanges (fun p => p = .pc ∨ p = .sp) s t := by
  have h16 : s.sp ≠ 16#8 := ne_of_apply_ne BitVec.toNat (Nat.ne_of_lt hlt)
  have hexec := exec_ret_of_reference hret (ne_of_apply_ne BitVec.toNat (Nat.ne_of_gt hpos))
  rw [if_neg h16, returnTo_of_lt hlt] at hexec
  exact exec_ret_pops hlt hpos hexec

theorem exec_ret_pops_of_textbook (hret : s.config.retIndex = .textbook) (hpos : 0 < s.sp.toNat)
    (hle : s.sp.toNat ≤ 16) :
    ∃ t w, exec .ret s = .next t ∧ stackSlot (s.sp.toNat - 1) s = some w ∧ t.pc = w ∧ t.sp.toNat + 1 = s.sp.toNat
      ∧ OnlyChanges (fun p => p = .pc ∨ p = .sp) s t := by
  have hlt : s.sp.toNat - 1 < 16 := by omega
  have hexec := exec_ret_of_textbook hret (ne_of_apply_ne BitVec.toNat (Nat.ne_of_gt hpos))
  rw [returnTo_of_lt hlt] at hexec
  exact exec_ret_pops hlt hpos hexec

/-! ### The terminator -/

theorem onlyChanges_setRun (r : RunState) (s : State) : OnlyChanges (· = .run) s (setRun r s) := by
  intro p hp
  cases p with
  | run => exact absurd rfl hp
  | _ => rfl

theorem onlyChanges_setRun_rewindPc (r : RunState) (s : State) :
    OnlyChanges (fun p => p = .pc ∨ p = .run) s (setRun r (rewindPc s)) := by
  intro p hp
  cases p with
  | pc => exact absurd (.inl rfl) hp
  | run => exact absurd (.inr rfl) hp
  | _ => rfl

/-- A machine that is ready at the word 0000 executes the terminator. -/
theorem executesTerminator_of_wordAt (hready : Ready s) (hw : WordAt s 0x0000#16) : s.executesTerminator := by
  obtain ⟨hr, hwindow⟩ := hready
  exact ⟨hr, (fetchable_iff s.pc).2 hwindow, fetchedInstr_of_wordAt hw⟩

/-- A continue request after a halt puts a running machine back as it was (40_step.md R72). -/
theorem startRequest_setRun_halted (hr : s.run = .running) : startRequest (setRun .halted s) = s := by
  rw [startRequest, setRun_run]
  show setRun .running s = s
  rw [setRun, ← hr]

end Sys2Proof.Machine

namespace Sys2Proof.Claims

open Sys2Proof.Machine

/-- Settles O10: the two outcomes of the checked target, which is the sum as a number. -/
theorem jpV0JumpsOrPanics : Obligations.JpV0JumpsOrPanics := by
  intro nnn s
  rw [← toNat_v0Target nnn s]
  refine ⟨fun h => ⟨setPc (v0Target nnn s) s, ?_, rfl, onlyChanges_setPc _ s⟩, fun h => ?_⟩
  · rw [exec_jpV0, withTarget_of_valid ((validTarget_iff _).2 h)]
  · have hv : ¬ validTarget (v0Target nnn s) = true := by rw [validTarget_iff]; omega
    exact ⟨_, (exec_jpV0 nnn s).trans (withTarget_of_not_valid hv s _), panics_raiseFatal _ s⟩

/-- Settles O11: the two checks in their order, and the push. -/
theorem callPushesOrPanics : Obligations.CallPushesOrPanics := by
  intro nnn s
  exact ⟨exec_call_pushes, fun h => ⟨_, exec_call_of_lt_target h s, panics_raiseFatal _ s⟩,
    fun h hsp => ⟨_, exec_call_of_stack_full h hsp, panics_raiseFatal _ s⟩⟩

/-- Settles O12: `SP` at 0, in range, at the end and above it, under both settings. -/
theorem retPopsOrPanics : Obligations.RetPopsOrPanics := by
  intro s
  refine ⟨exec_ret_pops_of_reference, exec_ret_pops_of_textbook, fun h0 => ?_, fun hret h16 => ?_, exec_ret_of_gt⟩
  · exact ⟨_, exec_ret_of_empty (BitVec.eq_of_toNat_eq h0), panics_raiseFatal _ s⟩
  · have hsp : s.sp = 16#8 := BitVec.eq_of_toNat_eq h16
    have hexec := exec_ret_of_reference hret (by rw [hsp]; decide)
    rw [if_pos hsp] at hexec
    exact ⟨_, hexec, panics_raiseFatal _ s⟩

/-- Settles O13: `CALL` leaves `SP` 1 higher; textbook then reads the slot it wrote, reference the one above. -/
theorem callThenRet : Obligations.CallThenRet := by
  intro nnn s hnnn
  refine ⟨fun hret hsp => ?_, fun hret hsp => ?_⟩
  · obtain ⟨t, ht, hslot, htsp, -, hframe⟩ := exec_call_pushes hnnn hsp
    have hret' : t.config.retIndex = .textbook := (congrArg _ (hframe .config (by simp))).trans hret
    obtain ⟨u, w, hu, hw, hpc, husp, -⟩ := exec_ret_pops_of_textbook hret' (by omega) (by omega)
    rw [htsp, Nat.add_sub_cancel, hslot] at hw
    exact ⟨t, u, ht, hu, hpc.trans (Option.some.inj hw).symm, BitVec.eq_of_toNat_eq (by omega)⟩
  · obtain ⟨t, ht, -, htsp, -, hframe⟩ := exec_call_pushes (s := s) hnnn (by omega)
    have hret' : t.config.retIndex = .reference := (congrArg _ (hframe .config (by simp))).trans hret
    obtain ⟨u, w, hu, hw, hpc, husp, -⟩ := exec_ret_pops_of_reference hret' (by omega) (by omega)
    have hkept : stackSlot (s.sp.toNat + 1) t = stackSlot (s.sp.toNat + 1) s := hframe (.slot _) (by simp)
    rw [htsp, hkept] at hw
    exact ⟨t, u, ht, hu, by rw [hpc, hw], BitVec.eq_of_toNat_eq (by omega)⟩

/-- Settles O14: back to its own address, and Halted. -/
theorem terminatorHalts : Obligations.TerminatorHalts := fun s =>
  ⟨_, rfl, rfl, rfl, onlyChanges_setRun_rewindPc .halted s⟩

/-- Settles O15: the step that executes the terminator writes the run state alone, and a continue request undoes
it. -/
theorem terminatorIsIdempotent : Obligations.TerminatorIsIdempotent := by
  intro s hready hr hw
  have hstep : step s = .next (setRun .halted s) := step_of_executesTerminator (executesTerminator_of_wordAt hready hw)
  refine ⟨hstep, ?_⟩
  exact (congrArg step (startRequest_setRun_halted hr)).trans hstep

end Sys2Proof.Claims
end

section
/-! PROOFS of the family 10_state.md: who writes `VF` (R15), `SP` (R18), the stack (R19), the timers (R20), the display
(R21) and the construction record (R26); and the fatal reasons by instruction (60_exceptions.md R116). -/

namespace Sys2Proof.Machine

open Sys2Proof.Claims

variable {s t : State}

/-! ### What each effect writes -/

/-- No instruction writes the construction record or a timer (10_state.md R20, R26). -/
theorem Effect.inert {i : Instr} (h : Effect s i t) : t.config = s.config ∧ t.dt = s.dt ∧ t.st = s.st := by
  cases h with
  | drw => exact ⟨applyBlit_config _ _, applyBlit_dt _ _, applyBlit_st _ _⟩
  | seVxKk | sneVxKk | seVxVy | sneVxVy => split <;> exact ⟨rfl, rfl, rfl⟩
  | _ => exact ⟨rfl, rfl, rfl⟩

/-- No instruction but `CLS` and `DRW` writes the framebuffer (10_state.md R21). -/
theorem Effect.disp {i : Instr} (h : Effect s i t) (hcls : i ≠ .cls) (hdrw : ∀ x y n, i ≠ .drw x y n) :
    t.disp = s.disp := by
  cases h with
  | cls => exact absurd rfl hcls
  | drw x y n => exact absurd rfl (hdrw x y n)
  | seVxKk | sneVxKk | seVxVy | sneVxVy => split <;> rfl
  | _ => rfl

/-- A blit sets `VF` to 1, or keeps it (44_display.md R110). -/
theorem getV_flagReg_applyBlit (b : Blit) (s : State) :
    getV flagReg (applyBlit b s) = if b.collide then 1#8 else getV flagReg s := by
  cases hb : b.collide
  · rw [applyBlit_of_not_collide hb]; rfl
  · rw [applyBlit_of_collide hb]; exact getV_flagReg_setFlag _ true

/-- An effect keeps `VF`, or writes it with a flag, or is a blit that sets it (10_state.md R15). -/
theorem Effect.flag_cases {i : Instr} (h : Effect s i t) :
    getV flagReg t = getV flagReg s
      ∨ (writesFlag i = true ∧ ∃ f : Bool, getV flagReg t = if f then 0x01#8 else 0x00#8)
      ∨ (∃ x y n, i = .drw x y n) ∧ getV flagReg t = 1#8 := by
  cases h with
  | dest i x b hd hx => exact .inl (getV_setV_of_ne s hx.symm b)
  | rnd x kk b hx => exact .inl (getV_setV_of_ne _ hx.symm b)
  | flagDest i x f b hd hx hw =>
    exact .inr (.inl ⟨hw, f, (getV_setV_of_ne _ hx.symm b).trans (getV_flagReg_setFlag s f)⟩)
  | drw x y n b =>
    have hflag := getV_flagReg_applyBlit b s
    split at hflag
    · exact .inr (.inr ⟨⟨x, y, n, rfl⟩, hflag⟩)
    · exact .inl hflag
  | seVxKk | sneVxKk | seVxVy | sneVxVy => left; split <;> rfl
  | _ => exact .inl rfl

/-- `CALL` adds 1 to `SP` below 16, `RET` takes 1 from it above 0, every other effect keeps it (10_state.md R18). -/
theorem Effect.sp_cases {i : Instr} (h : Effect s i t) :
    t.sp = s.sp ∨ (∃ nnn, i = .call nnn ∧ s.sp.toNat < 16 ∧ t.sp.toNat = s.sp.toNat + 1)
      ∨ (i = .ret ∧ 0 < s.sp.toNat ∧ t.sp.toNat + 1 = s.sp.toNat) := by
  cases h with
  | call nnn hv hsp => exact .inr (.inl ⟨nnn, rfl, hsp, toNat_pushReturn_sp s.pc hsp⟩)
  | ret j w hslot hsp =>
    have hpos : 0 < s.sp.toNat := Nat.pos_of_ne_zero fun e => hsp (BitVec.eq_of_toNat_eq e)
    exact .inr (.inr ⟨rfl, hpos, toNat_popReturn_sp w hpos⟩)
  | drw => exact .inl (applyBlit_sp _ _)
  | seVxKk | sneVxKk | seVxVy | sneVxVy => left; split <;> rfl
  | _ => exact .inl rfl

/-- `SP` stays in 0..16 (10_state.md R18). -/
theorem Effect.spInRange {i : Instr} (h : Effect s i t) (hs : s.spInRange) : t.spInRange := by
  unfold State.spInRange at *
  obtain hsp | ⟨-, -, hlt, hsp⟩ | ⟨-, -, hsp⟩ := h.sp_cases
  · rwa [hsp]
  · omega
  · omega

/-- The only effect that changes a slot is that of `CALL` on the slot `SP` (10_state.md R19). -/
theorem Effect.stackSlot_cases {i : Instr} (h : Effect s i t) (j : Nat) :
    stackSlot j t = stackSlot j s
      ∨ (j = s.sp.toNat ∧ stackSlot j t = some s.pc ∧ ∃ nnn, i = .call nnn ∧ t.sp.toNat = s.sp.toNat + 1) := by
  cases h with
  | call nnn hv hsp =>
    by_cases hj : j = s.sp.toNat
    · subst hj
      exact .inr ⟨rfl, stackSlot_pushReturn_self s s.pc hsp, nnn, rfl, toNat_pushReturn_sp s.pc hsp⟩
    · exact .inl (stackSlot_pushReturn_of_ne s hj s.pc)
  | drw => exact .inl (congrArg (·[j]?) (applyBlit_stack _ _))
  | seVxKk | sneVxKk | seVxVy | sneVxVy => left; split <;> rfl
  | _ => exact .inl rfl

/-! ### What each request writes -/

/-- No step writes the construction record or a timer (10_state.md R20, R26). -/
theorem step_inert (h : step s = .next t) : t.config = s.config ∧ t.dt = s.dt ∧ t.st = s.st := by
  obtain ⟨-, rfl⟩ | ⟨-, hc⟩ := step_next h
  · exact ⟨rfl, rfl, rfl⟩
  obtain ⟨-, rfl⟩ | ⟨-, he⟩ := cycle_next hc
  · exact ⟨rfl, rfl, rfl⟩
  · exact (exec_effect he).inert

/-- A start request writes the run state alone. -/
theorem startRequest_eq_setRun (s : State) : startRequest s = setRun (startRequest s).run s := by
  obtain ⟨-, he⟩ | ⟨-, he⟩ := startRequest_cases s <;> rw [he] <;> rfl

/-- A stop request writes the run state alone. -/
theorem stopRequest_eq_setRun (s : State) : stopRequest s = setRun (stopRequest s).run s := by
  obtain ⟨-, he⟩ | ⟨-, he⟩ := stopRequest_cases s <;> rw [he] <;> rfl

/-- No request writes the construction record, and none but reset writes a timer (10_state.md R20, R26). -/
theorem serve_inert {q : Request} (h : serve q s = .next t) :
    t.config = s.config ∧ (q ≠ .reset → t.dt = s.dt ∧ t.st = s.st) := by
  cases q with
  | step =>
    obtain ⟨hconfig, htimers⟩ := step_inert h
    exact ⟨hconfig, fun _ => htimers⟩
  | start => cases h; rw [startRequest_eq_setRun]; exact ⟨rfl, fun _ => ⟨rfl, rfl⟩⟩
  | stop => cases h; rw [stopRequest_eq_setRun]; exact ⟨rfl, fun _ => ⟨rfl, rfl⟩⟩
  | reset => cases h; exact ⟨rfl, fun hq => absurd rfl hq⟩
  | loadImage | inspect | decode => cases h; exact ⟨rfl, fun _ => ⟨rfl, rfl⟩⟩
  | displayClear | displayFill | displayRandomize =>
    have ht : setDisp _ s = t := Host.Outcome.next.inj h
    rw [← ht]; exact ⟨setDisp_config _ _, fun _ => ⟨setDisp_dt _ _, setDisp_st _ _⟩⟩

/-- The requests other than step, reset and the display's own keep the framebuffer (10_state.md R21). -/
theorem serve_disp {q : Request} (h : serve q s = .next t) (hstep : q ≠ .step) (hreset : q ≠ .reset)
    (hclear : q ≠ .displayClear) (hfill : q ≠ .displayFill) (hrandomize : ∀ d, q ≠ .displayRandomize d) :
    t.disp = s.disp := by
  cases q with
  | step => exact absurd rfl hstep
  | reset => exact absurd rfl hreset
  | displayClear => exact absurd rfl hclear
  | displayFill => exact absurd rfl hfill
  | displayRandomize d => exact absurd rfl (hrandomize d)
  | start => cases h; rw [startRequest_eq_setRun]; rfl
  | stop => cases h; rw [stopRequest_eq_setRun]; rfl
  | loadImage | inspect | decode => cases h; rfl

theorem pixel_of_disp_eq (h : t.disp = s.disp) (k : Nat) : pixel k t = pixel k s := congrArg (·.getLsbD k) h

end Sys2Proof.Machine

namespace Sys2Proof.Claims

open Sys2Proof.Machine

/-- Settles O40: the step by the inversion of exec, the other requests one by one. -/
theorem timersAndConfigAreInert : Obligations.TimersAndConfigAreInert := fun _q _s _t h => serve_inert h

/-- Settles O41: an effect that changes `VF` wrote it with a flag, or is a blit with a collision. -/
theorem flagWriters : Obligations.FlagWriters := by
  intro i s t h hne
  obtain hkeep | ⟨hw, f, hf⟩ | ⟨⟨x, y, n, hi⟩, hone⟩ := (exec_effect h).flag_cases
  · exact absurd hkeep hne
  · refine .inl ⟨hw, ?_⟩
    cases f
    · exact .inl hf
    · exact .inr hf
  · exact .inr ⟨x, y, n, hi, hone⟩

/-- Settles O43: the inversion of exec, and the range from it. -/
theorem stackPointerWriters : Obligations.StackPointerWriters :=
  ⟨fun _c => rfl, fun _i _s _t h => ⟨(exec_effect h).sp_cases, (exec_effect h).spInRange⟩⟩

/-- Settles O44: the inversion of exec, and what a push does to its slot and to the others. -/
theorem stackSlotWriters : Obligations.StackSlotWriters := fun _i _s _t j h => (exec_effect h).stackSlot_cases j

/-- Settles O46: instructions by the inversion of exec, requests one by one. -/
theorem displayWriters : Obligations.DisplayWriters :=
  ⟨fun _i _s _t h hcls hdrw => pixel_of_disp_eq ((exec_effect h).disp hcls hdrw),
    fun _q _s _t h hstep hreset hclear hfill hrandomize =>
      pixel_of_disp_eq (serve_disp h hstep hreset hclear hfill hrandomize)⟩

/-- Settles O37: an effect that enters Panicked is a fatal condition of the instruction's own row. -/
theorem fatalReasonsByInstruction : Obligations.FatalReasonsByInstruction := by
  intro i s t r h hs ht hr
  obtain ⟨r', hr', rfl⟩ := (exec_effect h).eq_raiseFatal_of_panicked hs ht
  obtain rfl : r' = r := Option.some.inj hr
  exact hr'

end Sys2Proof.Claims
end

section
/-! PROOFS of the invariants (10_state.md R17 to R19, R24, R28): they hold at construction, every step and every other
request keeps them, and from them every request answers. -/

namespace Sys2Proof.Machine

open Sys2Proof.Claims

variable {s t : State}

/-! ### The invariant of the machine -/

/-- The machine constructed from a well-formed record meets the invariant (70_reset_and_hazards.md R131). -/
theorem construct_inv {c : Config} (hc : c.wf = true) : (State.construct c).Inv := by
  have hrun : (State.construct c).faultMatchesRun := ⟨nofun, fun h => absurd rfl h⟩
  exact ⟨Nat.zero_le _, hrun, wf_constructMemory hc, hc⟩

/-- Outside Panicked there is no fault reason. -/
theorem State.Inv.fault_eq_none (hs : s.Inv) (hrun : s.run ≠ .panicked) : s.fault = none := by
  obtain ⟨-, hfault, -, -⟩ := hs
  exact not_not.1 fun hf => hrun (hfault.2 hf)

/-- A move between two run states other than Panicked keeps the invariant. -/
theorem State.Inv.setRun (hs : s.Inv) (hrun : s.run ≠ .panicked) {r : RunState} (hr : r ≠ .panicked) :
    (setRun r s).Inv := by
  have hnone := hs.fault_eq_none hrun
  obtain ⟨hsp, -, hmem, hconfig⟩ := hs
  exact ⟨hsp, ⟨fun h => absurd h hr, fun h => absurd hnone h⟩, hmem, hconfig⟩

/-- The invariant says nothing of the framebuffer. -/
theorem State.Inv.setDisp (hs : s.Inv) (d : Screen) : (setDisp d s).Inv := hs

/-- An instruction executed outside Panicked keeps the invariant (10_state.md R28). -/
theorem Effect.inv {i : Instr} (h : Effect s i t) (hrun : s.run ≠ .panicked) (hs : s.Inv) : t.Inv := by
  have hnone := hs.fault_eq_none hrun
  obtain ⟨hsp, hfault, hmem, hconfig⟩ := hs
  have hfault' : t.faultMatchesRun := by
    obtain ⟨r, rfl⟩ | rfl | ⟨hr, hf⟩ := h.run_cases
    · exact ⟨fun _ => nofun, fun _ => rfl⟩
    · exact ⟨nofun, fun h => absurd hnone h⟩
    · rwa [State.faultMatchesRun, hr, hf]
  refine ⟨h.spInRange hsp, hfault', ?_, ?_⟩
  · rwa [h.mem]
  · rwa [h.inert.1]

/-- A fatal condition keeps the invariant. -/
theorem State.Inv.raiseFatal (hs : s.Inv) (r : FatalReason) : (raiseFatal r s).Inv := by
  obtain ⟨hsp, -, hmem, hconfig⟩ := hs
  exact ⟨hsp, ⟨fun _ => nofun, fun _ => rfl⟩, hmem, hconfig⟩

theorem ne_panicked_of_active (hr : s.run = .idle ∨ s.run = .running) : s.run ≠ .panicked := by
  obtain hr | hr := hr <;> rw [hr] <;> decide

/-- Every step keeps the invariant: the cycle runs outside Panicked. -/
theorem step_inv (hs : s.Inv) (h : step s = .next t) : t.Inv := by
  obtain ⟨-, rfl⟩ | ⟨hr, hc⟩ := step_next h
  · exact hs
  have hrunning : (setRun .running s).Inv := hs.setRun (ne_panicked_of_active hr) (by decide)
  obtain ⟨-, rfl⟩ | ⟨-, he⟩ := cycle_next hc
  · exact hrunning.raiseFatal .fetchOutOfRange
  · exact (exec_effect he).inv (s := advancePc (setRun .running s)) nofun hrunning

/-- Every other request keeps the invariant. -/
theorem serve_inv {q : Request} (hstep : q ≠ .step) (hs : s.Inv) (h : serve q s = .next t) : t.Inv := by
  have ⟨_, _, hmem, hconfig⟩ := hs
  cases q with
  | step => exact absurd rfl hstep
  | start =>
    cases h
    obtain ⟨hr, he⟩ | ⟨-, he⟩ := startRequest_cases s
    · have hrun : s.run ≠ .panicked := by obtain hr | hr := hr <;> rw [hr] <;> decide
      rw [he]; exact hs.setRun hrun (by decide)
    · rwa [he]
  | stop =>
    cases h
    obtain ⟨hr, he⟩ | ⟨-, he⟩ := stopRequest_cases s
    · rw [he]; exact hs.setRun (by rw [hr]; decide) (by decide)
    · rwa [he]
  | reset => cases h; exact construct_inv hconfig
  | loadImage img =>
    cases h
    obtain ⟨hsp, hfault, -, -⟩ := hs
    exact ⟨hsp, hfault, Memory.wf_loadImage hmem img, hconfig⟩
  | inspect | decode => cases h; exact hs
  | displayClear | displayFill | displayRandomize =>
    have ht : setDisp _ s = t := Host.Outcome.next.inj h
    rw [← ht]; exact hs.setDisp _

/-! ### Every request answers -/

theorem withDest_answers (x : Reg) (s : State) (f : State → State) : ∃ t, withDest x s f = .next t := by
  unfold withDest
  split <;> exact ⟨_, rfl⟩

theorem withTarget_answers {f : State → Result} (w : Word) (s : State) (hf : ∃ t, f s = .next t) :
    ∃ t, withTarget w s f = .next t := by
  unfold withTarget
  split
  · exact hf
  · exact ⟨_, rfl⟩

theorem execRet_answers (hsp : s.spInRange) : ∃ t, exec .ret s = .next t := by
  unfold State.spInRange at hsp
  by_cases h0 : s.sp = 0#8
  · exact ⟨_, exec_ret_of_empty h0⟩
  have hpos : 0 < s.sp.toNat := Nat.pos_of_ne_zero fun e => h0 (BitVec.eq_of_toNat_eq e)
  cases hret : s.config.retIndex with
  | textbook =>
    obtain ⟨t, -, ht, -⟩ := exec_ret_pops_of_textbook hret hpos hsp
    exact ⟨t, ht⟩
  | reference =>
    by_cases h16 : s.sp = 16#8
    · exact ⟨_, (exec_ret_of_reference hret h0).trans (if_pos h16)⟩
    · have hne : s.sp.toNat ≠ 16 := fun e => h16 (BitVec.eq_of_toNat_eq e)
      obtain ⟨t, -, ht, -⟩ := exec_ret_pops_of_reference hret hpos (by omega)
      exact ⟨t, ht⟩

/-- With `SP` in range every instruction answers a next state (93_implementation_defined.md Part 1). -/
theorem exec_answers (i : Instr) (hsp : s.spInRange) : ∃ t, exec i s = .next t := by
  cases hd : explicitDest i with
  | some x =>
    obtain ⟨f, hexec, -⟩ := exec_of_explicitDest hd s
    rw [hexec]
    exact withDest_answers x s f
  | none =>
    cases i with
    | ret => exact execRet_answers hsp
    | jp nnn => rw [exec_jp]; exact withTarget_answers _ s ⟨_, rfl⟩
    | jpV0 nnn => rw [exec_jpV0]; exact withTarget_answers _ s ⟨_, rfl⟩
    | call nnn =>
      rw [exec_call]
      refine withTarget_answers _ s ?_
      split <;> exact ⟨_, rfl⟩
    | drw x y n =>
      simp only [exec, execDrw]
      split
      · exact ⟨_, rfl⟩
      · split <;> exact ⟨_, rfl⟩
    | terminator | cls | sys | ldI | unrecognized | seVxKk | sneVxKk | seVxVy | sneVxVy => exact ⟨_, rfl⟩
    | _ => cases hd

theorem step_answers (hsp : s.spInRange) : ∃ t, step s = .next t := by
  cases hr : s.run with
  | halted | panicked => exact ⟨s, step_of_ended (by unfold State.ended; rw [hr]; decide)⟩
  | idle | running =>
    rw [step_of_active (by rw [hr]; decide), cycle]
    split
    · exact exec_answers _ hsp
    · exact ⟨_, rfl⟩

/-! ### The bounds of `I`, `pc` and the slots -/

/-- `LD I` writes a 12-bit value, and nothing else writes `I` (10_state.md R16). -/
theorem Effect.indexBounded {i : Instr} (h : Effect s i t) (hs : s.indexBounded) : t.indexBounded := by
  obtain hi | ⟨nnn, -, hi⟩ := h.index
  · rwa [State.indexBounded, hi, h.inert.1]
  · left
    rw [hi, toNat_zextAddr]
    omega

theorem step_indexBounded (hs : s.indexBounded) (h : step s = .next t) : t.indexBounded := by
  obtain ⟨-, rfl⟩ | ⟨-, hc⟩ := step_next h
  · exact hs
  obtain ⟨-, rfl⟩ | ⟨-, he⟩ := cycle_next hc
  · exact hs
  · exact (exec_effect he).indexBounded (s := advancePc (setRun .running s)) hs

/-- The bound of the slots, in terms of what a slot reads as. -/
theorem slotsBounded_iff : s.slotsBounded ↔
    ∀ (j : Fin 16) (w : Word), stackSlot j s = some w → w.toNat ≤ 0x1000 ∨ w = s.config.initStack[j] := by
  refine forall_congr' fun j => ?_
  rw [stackSlot_of_lt s j.isLt]
  simp

/-- `CALL` writes the post-fetch `pc`, and nothing else writes a slot (10_state.md R19). -/
theorem Effect.slotsBounded {i : Instr} (h : Effect s i t) (hpc : s.pc.toNat ≤ 0x1000) (hs : s.slotsBounded) :
    t.slotsBounded := by
  rw [slotsBounded_iff] at *
  intro j w hw
  obtain hkeep | ⟨-, hpush, -⟩ := h.stackSlot_cases j
  · rw [h.inert.1]
    exact hs j w (hkeep.symm.trans hw)
  · obtain rfl : s.pc = w := Option.some.inj (hpush.symm.trans hw)
    exact .inl hpc

/-- What a slot reads as is a bounded `pc`. -/
theorem pcBounded_of_stackSlot (hs : s.slotsBounded) {j : Nat} {w : Word} (hw : stackSlot j s = some w) :
    w.toNat ≤ 0x1002 ∨ ∃ j : Fin 16, w = s.config.initStack[j] := by
  have hj : j < 16 := by
    by_contra hge
    rw [stackSlot_of_ge s (Nat.not_lt.1 hge)] at hw
    cases hw
  obtain hle | he := slotsBounded_iff.1 hs ⟨j, hj⟩ w hw
  · exact .inl (by omega)
  · exact .inr ⟨_, he⟩

/-- A target is at most `0xFFF`, a return goes to a slot, and every other effect moves `pc` by at most 2 (10_state.md
R17): so from a post-fetch `pc`, which is in `0x202`..`0x1000`, the new `pc` is at most `0x1002` or from the stack. -/
theorem Effect.pcBounded {i : Instr} (h : Effect s i t) (hlo : 0x202 ≤ s.pc.toNat) (hhi : s.pc.toNat ≤ 0x1000)
    (hs : s.slotsBounded) : t.pcBounded := by
  have hkeep : s.pc.toNat ≤ 0x1002 := by omega
  have hskip : (s.pc + 2#16).toNat ≤ 0x1002 := by bv_omega
  have hback : (s.pc - 2#16).toNat ≤ 0x1002 := by bv_omega
  cases h with
  | ret j w hslot => exact pcBounded_of_stackSlot hs hslot
  | terminator => exact .inl hback
  | jp nnn hv | jpV0 nnn hv | call nnn hv =>
    obtain ⟨-, hle⟩ := (validTarget_iff _).1 hv
    exact .inl (Nat.le_trans hle (by decide))
  | seVxKk | sneVxKk | seVxVy | sneVxVy =>
    left
    split
    · exact hskip
    · exact hkeep
  | drw => left; rwa [applyBlit_pc]
  | _ => exact .inl hkeep

/-- Every step keeps the bounds of the slots and of `pc`. -/
theorem step_slotsBounded_pcBounded (hslots : s.slotsBounded) (hpc : s.pcBounded) (h : step s = .next t) :
    t.slotsBounded ∧ t.pcBounded := by
  obtain ⟨-, rfl⟩ | ⟨-, hc⟩ := step_next h
  · exact ⟨hslots, hpc⟩
  obtain ⟨-, rfl⟩ | ⟨hf, he⟩ := cycle_next hc
  · exact ⟨hslots, hpc⟩
  have hwindow : 0x200 ≤ s.pc.toNat ∧ s.pc.toNat ≤ 0xFFE := (fetchable_iff s.pc).1 hf
  have hadvanced : (s.pc + 2#16).toNat = s.pc.toNat + 2 := by bv_omega
  have hlo : 0x202 ≤ (s.pc + 2#16).toNat := by omega
  have hhi : (s.pc + 2#16).toNat ≤ 0x1000 := by omega
  have heffect := exec_effect he
  exact ⟨heffect.slotsBounded hhi hslots, heffect.pcBounded hlo hhi hslots⟩

end Sys2Proof.Machine

namespace Sys2Proof.Claims

open Sys2Proof.Machine

/-- Settles O48: from any well-formed record, and `State.reset` is constructed from one. -/
theorem constructionMeetsInv : Obligations.ConstructionMeetsInv :=
  ⟨fun _c => construct_inv, construct_inv (c := Config.standard) (by decide)⟩

/-- Settles O49: a cycle starts outside Panicked, where each effect keeps the invariant. -/
theorem stepKeepsInv : Obligations.StepKeepsInv := fun _s _t => step_inv

/-- Settles O50: the requests one by one. -/
theorem hostRequestsKeepInv : Obligations.HostRequestsKeepInv := fun _q _s _t => serve_inv

/-- Settles O51: with `SP` in range the slot that `RET` reads exists; every other request answers in any state. -/
theorem everyRequestAnswers : Obligations.EveryRequestAnswers := by
  rintro q s ⟨hsp, -⟩
  cases q with
  | step => exact step_answers hsp
  | _ => exact ⟨_, rfl⟩

/-- Settles O52: the writers of `I`. -/
theorem stepKeepsIndexBounded : Obligations.StepKeepsIndexBounded := fun _s _t => step_indexBounded

/-- Settles O53: the fetch window bounds the post-fetch `pc`, which is what `CALL` pushes. -/
theorem stepKeepsPcBounded : Obligations.StepKeepsPcBounded :=
  ⟨fun _c => ⟨fun _j => .inr rfl, .inl (by decide : programBase.toNat ≤ 0x1002)⟩,
    fun _s _t => step_slotsBounded_pcBounded⟩

end Sys2Proof.Claims
end

section
/-! PROOFS of the families 42_skip.md (R84) and 43_load_alu.md: the skip reads no memory; `ADD Vx,kk` (R91), the bitwise
operations (R93 to R95), the subtractions (R96, R97) and `RND` (R101, R102). -/

namespace Sys2Proof.Machine

open Sys2Proof.Claims

variable {s : State}

/-! ### The skip -/

/-- A skip's condition is one of registers. -/
theorem skipCondition_setMem (i : Instr) (m : Memory) (s : State) :
    skipCondition i { s with mem := m } = skipCondition i s := by
  cases i <;> rfl

theorem skipIf_setMem {c : Bool} {t : State} (m : Memory) (h : skipIf c s = .next t) :
    skipIf c { s with mem := m } = .next { t with mem := m } := by
  cases c <;> cases h <;> rfl

/-- A skip commutes with a replacement of memory (42_skip.md R84). -/
theorem exec_skip_setMem {i : Instr} {t : State} (hi : isSkip i = true) (m : Memory) (h : exec i s = .next t) :
    exec i { s with mem := m } = .next { t with mem := m } := by
  rw [exec_of_isSkip hi] at h ⊢
  rw [skipCondition_setMem]
  exact skipIf_setMem m h

/-! ### Destinations without a flag -/

theorem exec_addVxKk (x : Reg) (kk : Byte) (s : State) :
    exec (.addVxKk x kk) s = withDest x s fun s => setV x (wrappedSum (getV x s) kk) s := rfl

theorem exec_orVxVy (x y : Reg) (s : State) :
    exec (.orVxVy x y) s = withDest x s fun s => setV x (getV x s ||| getV y s) s := rfl

theorem exec_andVxVy (x y : Reg) (s : State) :
    exec (.andVxVy x y) s = withDest x s fun s => setV x (getV x s &&& getV y s) s := rfl

theorem exec_xorVxVy (x y : Reg) (s : State) :
    exec (.xorVxVy x y) s = withDest x s fun s => setV x (getV x s ^^^ getV y s) s := rfl

/-! ### The subtractions -/

/-- A register after a flag write: the flag for `VF`, the old value for the others. -/
theorem getV_setFlag (y : Reg) (f : Bool) (s : State) :
    getV y (setFlag f s) = if y = flagReg then getV flagReg (setFlag f s) else getV y s := by
  split
  · next hy => rw [hy]
  · next hy => exact getV_setFlag_of_ne s hy f

/-- The comparison, as the byte `VF` holds (43_load_alu.md R96, R97). -/
theorem flag_strictlyGreater (a b : Byte) :
    (if strictlyGreater a b then 0x01#8 else 0x00#8) = flagByte (b.toNat < a.toNat) := by
  simp only [strictlyGreater, flagByte, decide_eq_true_eq, gt_iff_lt]

/-- A flag write and then a write of the destination with a result of two registers that are read after the flag write:
`VF` holds the flag, the result is that of the old `V[x]` and of `V[y]` (for `y = 0xF` the new flag), and all else is
kept (92_eei_decisions.md D11). -/
theorem setV_after_setFlag {x : Reg} (hx : x ≠ flagReg) (y : Reg) (f : Bool) (op : Byte → Byte → Byte) {t : State}
    (ht : t = setV x (op (getV x (setFlag f s)) (getV y (setFlag f s))) (setFlag f s)) :
    getV flagReg t = (if f then 0x01#8 else 0x00#8)
      ∧ getV x t = op (getV x s) (if y = flagReg then getV flagReg t else getV y s)
      ∧ OnlyChanges (fun p => p = .reg x ∨ p = .reg flagReg) s t := by
  have hflag : getV flagReg t = getV flagReg (setFlag f s) := by rw [ht, getV_setV_of_ne _ hx.symm]
  refine ⟨hflag.trans (getV_flagReg_setFlag s f), ?_, ?_⟩
  · rw [hflag, ← getV_setFlag y f s, ← getV_setFlag_of_ne s hx f, ht, getV_setV_self]
  · rw [ht]; exact onlyChanges_setV_setFlag x _ f s

theorem exec_subVxVy_of_ne {x : Reg} (hx : x ≠ flagReg) (y : Reg) (s : State) :
    exec (.subVxVy x y) s = .next (subtractInto x y (setFlag (strictlyGreater (getV x s) (getV y s)) s)) := by
  simp only [exec, execSubVxVy, withDest_of_ne hx]

theorem exec_subnVxVy_of_ne {x : Reg} (hx : x ≠ flagReg) (y : Reg) (s : State) :
    exec (.subnVxVy x y) s = .next (subtractFrom x y (setFlag (strictlyGreater (getV y s) (getV x s)) s)) := by
  simp only [exec, execSubnVxVy, withDest_of_ne hx]

/-! ### `RND` -/

theorem onlyChanges_setV_takeDraw (x : Reg) (b : Byte) (s : State) :
    OnlyChanges (fun p => p = .reg x ∨ p = .draws) s (setV x b (takeDraw s)) := by
  intro p hp
  cases p with
  | reg r => exact getV_setV_of_ne _ (fun hr => hp (.inl (congrArg Part.reg hr))) b
  | draws => exact absurd (.inr rfl) hp
  | _ => rfl

/-- Whatever the draw, it is masked into the destination and counted (43_load_alu.md R101). -/
theorem rndWith_of_ne {x : Reg} (hx : x ≠ flagReg) (draw kk : Byte) (s : State) :
    rndWith draw x kk s = .next (setV x (draw &&& kk) (takeDraw s)) := withDest_of_ne hx s _

end Sys2Proof.Machine

namespace Sys2Proof.Claims

open Sys2Proof.Machine

/-- Settles O19: the skip action, which commutes with a replacement of memory. -/
theorem skippedWordIsNotRead : Obligations.SkippedWordIsNotRead := by
  intro i s m hi
  obtain ⟨t, ht, hpc, hframe⟩ := exec_skip hi s
  exact ⟨t, ht, exec_skip_setMem hi m ht, hpc, hframe⟩

/-- Settles O22: one write of the destination, which holds the wrapped sum. -/
theorem addImmediate : Obligations.AddImmediate := by
  refine fun x kk s => ⟨fun hx => ?_, raises_reservedRegister rfl⟩
  obtain ⟨t, ht, hsum, hframe⟩ := exec_dest hx (exec_addVxKk x kk s)
  exact ⟨t, ht, by rw [hsum, toNat_wrappedSum], hframe⟩

/-- Settles O24: each is one write of the destination. -/
theorem bitwiseOperations : Obligations.BitwiseOperations := fun x y s =>
  ⟨fun hx => ⟨exec_dest hx (exec_orVxVy x y s), exec_dest hx (exec_andVxVy x y s), exec_dest hx (exec_xorVxVy x y s)⟩,
    fun hx => ⟨raises_reservedRegister rfl hx, raises_reservedRegister rfl hx, raises_reservedRegister rfl hx⟩⟩

/-- Settles O25: the flag is written from the old operands, and the operands of the difference are read after it. -/
theorem subtractions : Obligations.Subtractions := by
  refine fun x y s => ⟨fun hx => ⟨?_, ?_⟩,
    fun hx => ⟨raises_reservedRegister rfl hx, raises_reservedRegister rfl hx⟩⟩
  · obtain ⟨hflag, hdiff, hframe⟩ := setV_after_setFlag (s := s) hx y _ (fun a b => wrappedDiff a b) rfl
    exact ⟨_, exec_subVxVy_of_ne hx y s, hflag.trans (flag_strictlyGreater _ _), hdiff, hframe⟩
  · obtain ⟨hflag, hdiff, hframe⟩ := setV_after_setFlag (s := s) hx y _ (fun a b => wrappedDiff b a) rfl
    exact ⟨_, exec_subnVxVy_of_ne hx y s, hflag.trans (flag_strictlyGreater _ _), hdiff, hframe⟩

/-- Settles O29: the draw is masked and counted, and `RND` takes the model's free value as its draw. -/
theorem randomMasked : Obligations.RandomMasked := by
  intro x kk s
  refine ⟨rfl, fun hx => ?_, fun hx draw => ?_, raises_reservedRegister rfl⟩
  · refine ⟨_, rndWith_of_ne hx _ kk s, ?_, rfl, onlyChanges_setV_takeDraw x _ s⟩
    rw [getV_setV_self, BitVec.and_assoc, BitVec.and_not_self]
    exact BitVec.and_zero
  · exact ⟨_, rndWith_of_ne hx draw kk s, getV_setV_self _ x _, onlyChanges_setV_takeDraw x _ s⟩

end Sys2Proof.Claims
end

section
/-! PROOFS of the family 44_display.md: the cells of a sprite (R107, R108), the two checks of `DRW` and their order
(R106, R108), what it toggles (R109 to R111), and that a second draw undoes the first. -/

namespace Sys2Proof.Machine

open Sys2Proof.Claims

variable {s t : State} {mode : SpriteAddressing} {px py : Byte} {x y : Reg} {n : Nibble}

/-! ### The cells of one draw are distinct -/

theorem cellIndex_eq_cellNumber (mode : SpriteAddressing) (px py : Byte) (r c : Nat) :
    cellIndex mode px py r c = cellNumber mode px py r c := by
  cases mode <;> rfl

theorem cellOf_eq_some_iff_cellNumber {r c k : Nat} :
    cellOf mode px py r c = some k ↔ cellNumber mode px py r c = k ∧ k < 2048 := by
  rw [← cellIndex_eq_cellNumber]
  exact cellOf_eq_some_iff

/-- Two bits of one sprite with the same cell are the same bit: a row has 8 columns, fewer than the screen, and there
are 15 rows, fewer than the screen's (44_display.md §2). -/
theorem cellNumber_inj {r c r' c' : Nat} (hr : r < 15) (hr' : r' < 15) (hc : c < 8) (hc' : c' < 8)
    (h : cellNumber mode px py r c = cellNumber mode px py r' c') : r = r' ∧ c = c' := by
  cases mode with
  | linearFault | linearDrop => simp only [cellNumber] at h; omega
  | toroidal => simp only [cellNumber] at h; omega

theorem cellOf_inj {r c r' c' k : Nat} (hr : r < 15) (hr' : r' < 15) (hc : c < 8) (hc' : c' < 8)
    (h : cellOf mode px py r c = some k) (h' : cellOf mode px py r' c' = some k) : r = r' ∧ c = c' := by
  obtain ⟨hk, -⟩ := cellOf_eq_some_iff_cellNumber.1 h
  obtain ⟨hk', -⟩ := cellOf_eq_some_iff_cellNumber.1 h'
  exact cellNumber_inj hr hr' hc hc' (hk.trans hk'.symm)

/-! ### The cells that a sprite toggles, as a list -/

theorem mem_spriteColumns {c : Nat} : c ∈ spriteColumns ↔ c < 8 := by
  simp only [spriteColumns, List.mem_cons, List.not_mem_nil, or_false]
  omega

theorem mem_rowCells {r k : Nat} {row : Byte} :
    k ∈ rowCells mode px py r row ↔ ∃ c, c < 8 ∧ spriteBit row c = true ∧ cellOf mode px py r c = some k := by
  simp only [rowCells, List.mem_filterMap, List.mem_filter, mem_spriteColumns, and_assoc]

theorem mem_spriteCells {r k : Nat} {rows : List Byte} :
    k ∈ spriteCells mode px py r rows ↔ ∃ j row, rows[j]? = some row ∧ k ∈ rowCells mode px py (r + j) row := by
  induction rows generalizing r with
  | nil => simp [spriteCells]
  | cons row rows ih =>
    rw [spriteCells, List.mem_append, ih]
    constructor
    · rintro (h | ⟨j, row', hj, h⟩)
      · exact ⟨0, row, rfl, h⟩
      · exact ⟨j + 1, row', hj, by rwa [Nat.add_right_comm] at h⟩
    · rintro ⟨j, row', hj, h⟩
      cases j with
      | zero => cases hj; exact .inl h
      | succ j => exact .inr ⟨j, row', hj, by rwa [Nat.add_right_comm]⟩

theorem nodup_rowCells {r : Nat} (hr : r < 15) (row : Byte) : (rowCells mode px py r row).Nodup := by
  have hcols : (spriteColumns.filter fun c => spriteBit row c).Nodup := List.Nodup.filter _ (by decide)
  refine List.pairwise_filterMap.2 (hcols.imp_of_mem fun hc hc' hne k hk k' hk' hkk => hne ?_)
  subst hkk
  have hlt := mem_spriteColumns.1 (List.mem_of_mem_filter hc)
  have hlt' := mem_spriteColumns.1 (List.mem_of_mem_filter hc')
  exact (cellOf_inj hr hr hlt hlt' hk hk').2

/-- Rows of one draw share no cell, so a sprite toggles each of its cells once. -/
theorem nodup_spriteCells {r : Nat} {rows : List Byte} (h : r + rows.length ≤ 15) :
    (spriteCells mode px py r rows).Nodup := by
  induction rows generalizing r with
  | nil => exact List.nodup_nil
  | cons row rows ih =>
    simp only [List.length_cons] at h
    refine List.nodup_append.2 ⟨nodup_rowCells (by omega) row, ih (by omega), ?_⟩
    rintro k hk k' hk' rfl
    obtain ⟨j, row', hj, hk'⟩ := mem_spriteCells.1 hk'
    obtain ⟨c, hc, -, hcell⟩ := mem_rowCells.1 hk
    obtain ⟨c', hc', -, hcell'⟩ := mem_rowCells.1 hk'
    have hjlt : j < rows.length := (List.getElem?_eq_some_iff.1 hj).1
    obtain ⟨hrow, -⟩ := cellOf_inj (by omega) (by omega) hc hc' hcell hcell'
    omega

/-! ### The sprite in memory -/

/-- Column `c` of a row as a digit of its number (44_display.md R107). -/
theorem spriteBit_iff {row : Byte} {c : Nat} : spriteBit row c = true ↔ row.toNat / 2 ^ (7 - c) % 2 = 1 := by
  rw [spriteBit, BitVec.getLsbD, Nat.testBit_zero, BitVec.toNat_ushiftRight, Nat.shiftRight_eq_div_pow,
    decide_eq_true_eq]

theorem toNat_spriteBase (s : State) : (spriteBase s).toNat = s.i.toNat % 4096 := BitVec.toNat_setWidth 12 s.i

/-- Row `r` of the sprite is the byte `r` after the base (44_display.md R106). -/
theorem spriteRows_getElem? {r : Nat} (hr : r < n.toNat) : (spriteRows n s)[r]? = some (spriteByte s r) := by
  have haddr : spriteBase s + BitVec.ofNat 12 r = BitVec.ofNat 12 (s.i.toNat % 4096 + r) := by
    apply BitVec.eq_of_toNat_eq
    rw [BitVec.toNat_add, toNat_spriteBase, BitVec.toNat_ofNat, BitVec.toNat_ofNat, Nat.add_mod_mod]
  simp only [spriteRows, List.getElem?_map, List.getElem?_range hr, Option.map_some, haddr, spriteByte]

theorem spriteRows_length (n : Nibble) (s : State) : (spriteRows n s).length = n.toNat := by
  simp only [spriteRows, List.length_map, List.length_range]

/-- The cells that `DRW Vx,Vy,n` toggles. -/
def drawnCells (x y : Reg) (n : Nibble) (s : State) : List Nat :=
  spriteCells s.config.spriteAddressing (getV x s) (getV y s) 0 (spriteRows n s)

/-- They are the cells of the buffer that some 1 bit of the sprite has. -/
theorem mem_drawnCells {k : Nat} : k ∈ drawnCells x y n s ↔ k < 2048 ∧ SpriteHits x y n s k := by
  simp only [drawnCells, mem_spriteCells, mem_rowCells, cellOf_eq_some_iff_cellNumber, spriteBit_iff, Nat.zero_add]
  constructor
  · rintro ⟨r, row, hrow, c, hc, hbit, hcell, hk⟩
    have hr : r < n.toNat := spriteRows_length n s ▸ (List.getElem?_eq_some_iff.1 hrow).1
    obtain rfl : spriteByte s r = row := Option.some.inj ((spriteRows_getElem? hr).symm.trans hrow)
    exact ⟨hk, r, c, hr, hc, hbit, hcell⟩
  · rintro ⟨hk, r, c, hr, hc, hbit, hcell⟩
    exact ⟨r, _, spriteRows_getElem? hr, c, hc, hbit, hcell, hk⟩

theorem nodup_drawnCells : (drawnCells x y n s).Nodup :=
  nodup_spriteCells (by rw [spriteRows_length]; omega)

/-! ### The checks -/

theorem spriteReadPast_eq_false_iff : spriteReadPast n s = false ↔ SpriteInMemory n s := by
  simp only [spriteReadPast, List.any_eq_false, List.mem_range, decide_eq_true_eq, toNat_spriteBase, Nat.not_lt,
    gt_iff_lt, SpriteInMemory]

theorem pixelPast_eq_false_iff {m : Nat} :
    pixelPast px py m = false ↔ ∀ r, r < m → ∀ c, c < 8 → cellNumber .linearFault px py r c ≤ 2047 := by
  simp only [pixelPast, List.any_eq_false, List.any_eq_true, List.mem_range, mem_spriteColumns, decide_eq_true_eq,
    gt_iff_lt, not_exists, not_and, Nat.not_lt]
  rfl

theorem blitFault_eq_false_iff :
    blitFault s.config.spriteAddressing (getV x s) (getV y s) n.toNat = false ↔ SpriteOnScreen x y n s := by
  unfold SpriteOnScreen
  cases s.config.spriteAddressing with
  | linearFault => exact pixelPast_eq_false_iff.trans (by simp only [forall_const])
  | linearDrop | toroidal => exact ⟨fun _ => nofun, fun _ => rfl⟩

theorem exec_drw_of_not_inMemory (h : ¬ SpriteInMemory n s) :
    exec (.drw x y n) s = .next (raiseFatal .spriteReadOutOfRange s) := by
  rw [← spriteReadPast_eq_false_iff, Bool.not_eq_false] at h
  exact if_pos h

theorem exec_drw_of_not_onScreen (hmem : SpriteInMemory n s) (h : ¬ SpriteOnScreen x y n s) :
    exec (.drw x y n) s = .next (raiseFatal .pixelOutOfRange s) := by
  rw [← spriteReadPast_eq_false_iff] at hmem
  rw [← blitFault_eq_false_iff, Bool.not_eq_false] at h
  simp only [exec, execDrw, hmem, h, Bool.false_eq_true, if_true, if_false, fatal_eq]

/-- The blit of `DRW`: the framebuffer with the drawn cells toggled. -/
def drawBlit (x y : Reg) (n : Nibble) (s : State) : Blit :=
  blitSprite s.config.spriteAddressing (getV x s) (getV y s) (spriteRows n s) s.disp

theorem exec_drw_of_checks (hmem : SpriteInMemory n s) (hscreen : SpriteOnScreen x y n s) :
    exec (.drw x y n) s = .next (applyBlit (drawBlit x y n s) s) := by
  rw [← spriteReadPast_eq_false_iff] at hmem
  rw [← blitFault_eq_false_iff] at hscreen
  simp only [exec, execDrw, hmem, hscreen, Bool.false_eq_true, if_false, drawBlit]

/-! ### What `DRW` writes -/

theorem drawBlit_eq_foldl (x y : Reg) (n : Nibble) (s : State) :
    drawBlit x y n s =
      (drawnCells x y n s).foldl (fun b k => toggleCell k b) { disp := s.disp, collide := false } :=
  blitRows_eq_foldl _ _ _ _ _ _

theorem lt_of_mem_drawnCells (k : Nat) (h : k ∈ drawnCells x y n s) : k < screenCells := (mem_drawnCells.1 h).1

theorem pixel_applyBlit_drawBlit (x y : Reg) (n : Nibble) (s : State) (k : Nat) :
    pixel k (applyBlit (drawBlit x y n s) s) = (pixel k s ^^ decide (k ∈ drawnCells x y n s)) := by
  rw [pixel, applyBlit_disp, drawBlit_eq_foldl]
  exact getLsbD_foldl_toggleCell nodup_drawnCells lt_of_mem_drawnCells _ k

/-- A draw collides when some drawn cell held 1 (44_display.md R110). -/
theorem drawBlit_collide_iff :
    (drawBlit x y n s).collide = true ↔ ∃ k, k < 2048 ∧ SpriteHits x y n s k ∧ pixel k s = true := by
  rw [drawBlit_eq_foldl, collide_foldl_toggleCell nodup_drawnCells lt_of_mem_drawnCells, Bool.false_or,
    List.any_eq_true]
  simp only [mem_drawnCells, and_assoc]
  rfl

theorem onlyChanges_applyBlit (b : Blit) (s : State) :
    OnlyChanges (fun p => IsCell p ∨ p = .reg flagReg) s (applyBlit b s) := by
  intro p hp
  cases p with
  | cell k => exact absurd (.inl ⟨k, rfl⟩) hp
  | reg r => exact getV_applyBlit_of_ne (fun hr => hp (.inr (congrArg Part.reg hr))) b s
  | index => exact applyBlit_i b s
  | pc => exact applyBlit_pc b s
  | sp => exact applyBlit_sp b s
  | slot j => exact congrArg (·[j]?) (applyBlit_stack b s)
  | delayTimer => exact applyBlit_dt b s
  | soundTimer => exact applyBlit_st b s
  | byte a => exact readByte_of_mem_eq (applyBlit_mem b s) a
  | run => exact applyBlit_run b s
  | fault => exact applyBlit_fault b s
  | config => exact applyBlit_config b s
  | draws => exact applyBlit_rndCount b s

/-- `DRW` where its checks hold: the cells it toggles, the collision, and the frame (44_display.md R109 to R111). -/
theorem exec_drw_toggles (hmem : SpriteInMemory n s) (hscreen : SpriteOnScreen x y n s) :
    ∃ t, exec (.drw x y n) s = .next t
      ∧ (∀ k, k < 2048 → (pixel k t ≠ pixel k s ↔ SpriteHits x y n s k))
      ∧ ((∃ k, k < 2048 ∧ SpriteHits x y n s k ∧ pixel k s = true) → getV flagReg t = 1#8)
      ∧ ((¬ ∃ k, k < 2048 ∧ SpriteHits x y n s k ∧ pixel k s = true) → getV flagReg t = getV flagReg s)
      ∧ OnlyChanges (fun p => IsCell p ∨ p = .reg flagReg) s t := by
  refine ⟨_, exec_drw_of_checks hmem hscreen, fun k hk => ?_, fun h => ?_, fun h => ?_, onlyChanges_applyBlit _ s⟩
  · have hhits : k ∈ drawnCells x y n s ↔ SpriteHits x y n s k := mem_drawnCells.trans (and_iff_right hk)
    rw [pixel_applyBlit_drawBlit, ← hhits]
    by_cases hmem : k ∈ drawnCells x y n s <;> simp [hmem]
  · rw [getV_flagReg_applyBlit, if_pos (drawBlit_collide_iff.2 h)]
  · rw [getV_flagReg_applyBlit, if_neg (mt drawBlit_collide_iff.1 h)]

/-- With no rows the blit is the framebuffer as it was. -/
theorem applyBlit_drawBlit_zero (x y : Reg) (s : State) : applyBlit (drawBlit x y 0#4 s) s = s := rfl

/-! ### The second draw -/

/-- What a draw may write is none of what the next draw of the same sprite reads, as the coordinates are not in `VF`. -/
theorem draw_reads_kept (h : OnlyChanges (fun p => IsCell p ∨ p = .reg flagReg) s t) (hx : x ≠ flagReg)
    (hy : y ≠ flagReg) :
    getV x t = getV x s ∧ getV y t = getV y s ∧ t.i = s.i ∧ t.config = s.config
      ∧ ∀ a, readByte a t = readByte a s := by
  have hcell {p : Part} (hp : ∀ k, p ≠ .cell k) (hr : p ≠ .reg flagReg) : ¬ (IsCell p ∨ p = .reg flagReg) := by
    rintro (⟨k, rfl⟩ | rfl)
    · exact hp k rfl
    · exact hr rfl
  refine ⟨h (.reg x) (hcell nofun ?_), h (.reg y) (hcell nofun ?_), h .index (hcell nofun nofun),
    h .config (hcell nofun nofun), fun a => h (.byte a) (hcell nofun nofun)⟩
  · exact fun e => hx (Part.reg.inj e)
  · exact fun e => hy (Part.reg.inj e)

section
variable (hx : getV x t = getV x s) (hy : getV y t = getV y s) (hi : t.i = s.i) (hconfig : t.config = s.config)
  (hbytes : ∀ a, readByte a t = readByte a s)

include hi in
theorem spriteInMemory_congr : SpriteInMemory n t ↔ SpriteInMemory n s := by
  simp only [SpriteInMemory, hi]

include hx hy hconfig in
theorem spriteOnScreen_congr : SpriteOnScreen x y n t ↔ SpriteOnScreen x y n s := by
  simp only [SpriteOnScreen, hx, hy, hconfig]

include hx hy hi hconfig hbytes in
theorem spriteHits_congr (k : Nat) : SpriteHits x y n t k ↔ SpriteHits x y n s k := by
  simp only [SpriteHits, spriteByte, hx, hy, hi, hconfig, hbytes]

end

/-- A bit that changes exactly when it changed before is back at its first value. -/
theorem eq_of_changed_iff_changed : ∀ {a b c : Bool}, (b ≠ a ↔ c ≠ b) → c = a := by decide

end Sys2Proof.Machine

namespace Sys2Proof.Claims

open Sys2Proof.Machine

/-- Settles O32: a draw toggles the list of the cells of its 1 bits, which has no cell twice. -/
theorem drawTogglesTheSpriteCells : Obligations.DrawTogglesTheSpriteCells := by
  intro x y n s hmem hscreen
  refine ⟨exec_drw_toggles hmem hscreen, ?_⟩
  rintro rfl
  rw [exec_drw_of_checks hmem hscreen, applyBlit_drawBlit_zero]

/-- Settles O33: the two checks in their order, each with its fatal condition. -/
theorem drawChecksPanic : Obligations.DrawChecksPanic := fun _x _y _n s =>
  ⟨fun h => ⟨_, exec_drw_of_not_inMemory h, panics_raiseFatal _ s⟩,
    fun hmem h => ⟨_, exec_drw_of_not_onScreen hmem h, panics_raiseFatal _ s⟩⟩

/-- Settles O34: the second draw toggles the same cells, for the first kept all that a draw reads; a hit cell held 1
before the first draw or before the second. -/
theorem drawTwiceRestores : Obligations.DrawTwiceRestores := by
  intro x y n s hx hy hmem hscreen
  obtain ⟨t, ht, htoggle, hcollide, -, hframe⟩ := exec_drw_toggles hmem hscreen
  obtain ⟨htx, hty, hi, hconfig, hbytes⟩ := draw_reads_kept hframe hx hy
  have hhits (k : Nat) : SpriteHits x y n t k ↔ SpriteHits x y n s k := spriteHits_congr htx hty hi hconfig hbytes k
  obtain ⟨u, hu, htoggle', hcollide', hkeep', -⟩ :=
    exec_drw_toggles ((spriteInMemory_congr hi).2 hmem) ((spriteOnScreen_congr htx hty hconfig).2 hscreen)
  refine ⟨t, u, ht, hu, fun k hk => ?_, ?_⟩
  · exact eq_of_changed_iff_changed ((htoggle k hk).trans ((hhits k).symm.trans (htoggle' k hk).symm))
  · rintro ⟨k, hk, hhit⟩
    by_cases hheld : pixel k t = true
    · exact hcollide' ⟨k, hk, (hhits k).2 hhit, hheld⟩
    · have hheld' : pixel k s = true := by
        have hne := (htoggle k hk).2 hhit
        rw [Bool.not_eq_true] at hheld
        rw [hheld] at hne
        exact Bool.eq_true_of_not_eq_false hne.symm
      have hone : getV flagReg t = 1#8 := hcollide ⟨k, hk, hhit, hheld'⟩
      by_cases hcol : ∃ k, k < 2048 ∧ SpriteHits x y n t k ∧ pixel k t = true
      · exact hcollide' hcol
      · exact (hkeep' hcol).trans hone

/-- Settles O35: the table as a number, and its injectivity over the bits of one sprite. -/
theorem cellsOfOneDrawAreDistinct : Obligations.CellsOfOneDrawAreDistinct := by
  intro mode px py r c r' c' k hr hr' hc hc'
  exact ⟨cellOf_eq_some_iff_cellNumber.trans (and_congr_left' eq_comm), cellOf_inj hr hr' hc hc'⟩

/-- Settles O58: each is one write of the framebuffer. -/
theorem displayRequests : Obligations.DisplayRequests := by
  intro s draw
  refine ⟨⟨_, rfl, fun k _ => pixel_setDisp_blankScreen k s, onlyChanges_setDisp _ s⟩,
    ⟨_, rfl, fun k hk => ?_, onlyChanges_setDisp _ s⟩,
    ⟨_, rfl, fun k _ => pixel_setDisp k draw s, onlyChanges_setDisp draw s⟩⟩
  rw [fillDisplay_eq, pixel_setDisp, BitVec.getLsbD_allOnes]
  exact decide_eq_true hk

end Sys2Proof.Claims
end

section
/-! PROOFS of construction, reset, the image load (70_reset_and_hazards.md R131, R132, 20_memory.md R42), and of the
start and stop requests (40_step.md R72). -/

namespace Sys2Proof.Machine

open Sys2Proof.Claims

variable {s : State}

/-- A byte of the construction memory (20_memory.md R32): a glyph byte, or the initial content of its region. -/
theorem lookup_constructMemory {c : Config} (hc : c.wf = true) (k : Nat) :
    Memory.lookup (constructMemory c) k =
      if c.fontBase.toNat ≤ k ∧ k < c.fontBase.toNat + 80 then
        c.fontGlyphs.toList[k - c.fontBase.toNat]?.getD Memory.unlisted
      else if k < 0x200 then Memory.lookup c.reservedInit k
      else Memory.lookup c.programInit k := by
  have hinitial := canonFrom_initial hc
  simp only [Config.wf, Bool.and_eq_true, decide_eq_true_eq] at hc
  obtain ⟨⟨hbase, hreserved⟩, hprogram⟩ := hc
  have hlen : c.fontGlyphs.toList.length = 80 := Vector.length_toList
  rw [constructMemory, Memory.lookup_writeBytes hinitial (Nat.zero_le _) (by omega), hlen,
    Memory.lookup_append hreserved hprogram]

/-- A byte after an image load (20_memory.md R42): below the program region the old byte, in it the image's byte, or 0
past its end. -/
theorem lookup_loadImage {m : Memory} (hm : Memory.wf m = true) (img : List Byte) {k : Nat} (hk : k < 0x1000) :
    Memory.lookup (Memory.loadImage m img) k =
      if k < 0x200 then Memory.lookup m k else img[k - 0x200]?.getD 0#8 := by
  have hlen : (img.take 0xE00).length = min 0xE00 img.length := List.length_take
  rw [Memory.loadImage, Memory.lookup_writeBytes (Memory.canonFrom_zeroProgram hm) (Nat.zero_le _) (by omega),
    Memory.lookup_zeroProgram, hlen]
  by_cases hlow : k < 0x200
  · rw [if_neg (by omega), if_pos hlow, if_pos hlow]
  · rw [if_neg hlow, if_neg hlow]
    by_cases hin : k - 0x200 < img.length
    · rw [if_pos (by omega), List.getElem?_take_of_lt (by omega)]
      rfl
    · rw [if_neg (by omega), List.getElem?_eq_none (by omega)]
      rfl

theorem onlyChanges_loadImage (img : List Byte) (s : State) :
    OnlyChanges (fun p => ∃ a, p = .byte a) s (loadImage img s) := by
  intro p hp
  cases p with
  | byte a => exact absurd ⟨a, rfl⟩ hp
  | _ => rfl

theorem onlyChanges_startRequest (s : State) : OnlyChanges (· = .run) s (startRequest s) := by
  rw [startRequest_eq_setRun]
  exact onlyChanges_setRun _ s

theorem onlyChanges_stopRequest (s : State) : OnlyChanges (· = .run) s (stopRequest s) := by
  rw [stopRequest_eq_setRun]
  exact onlyChanges_setRun _ s

end Sys2Proof.Machine

namespace Sys2Proof.Claims

open Sys2Proof.Machine

/-- Settles O54: a reset is the machine constructed from the record, and the count of draws goes on. -/
theorem resetRestoresConstruction : Obligations.ResetRestoresConstruction := fun s =>
  ⟨reinitialise s, rfl, rfl, rfl, rfl, rfl, rfl, fun _r => rfl, rfl, rfl, rfl, rfl, rfl⟩

/-- Settles O55: the glyphs written over the two initial contents. -/
theorem constructionMemory : Obligations.ConstructionMemory := by
  intro c a hc
  refine (lookup_constructMemory hc a.toNat).trans ?_
  split
  · next h => simp [show a.toNat - c.fontBase.toNat < 80 by omega]
  · rfl

/-- Settles O56: the zero fill and the image over it. -/
theorem imageLoadFillsProgramRegion : Obligations.ImageLoadFillsProgramRegion := fun img s hmem =>
  ⟨loadImage img s, rfl, fun a => lookup_loadImage hmem img a.isLt, onlyChanges_loadImage img s⟩

/-- Settles O57: both requests write the run state alone, by the table of 40_step.md R72. -/
theorem startAndStopChangeRunAlone : Obligations.StartAndStopChangeRunAlone := by
  intro s
  refine ⟨⟨_, rfl, onlyChanges_startRequest s, ?_⟩, ⟨_, rfl, onlyChanges_stopRequest s, ?_⟩⟩
  · rw [startRequest_run]
    cases s.run <;> rfl
  · rw [stopRequest_run]
    cases s.run <;> rfl

end Sys2Proof.Claims
end
